-- ==== Sys2Proof/Word.lean ====
section
/-! DEFINITION. The two word sizes of the block: `u8` and `u9` of spec/00_scope.md R6. -/

namespace Sys2Proof

/-- `u8`: the content of every register, memory cell and immediate (`WORD_BITS` = 8, R4, R6). -/
abbrev Byte := BitVec 8

/-- `u9`: the width of the program counter and of the fault record's address fields (R6, R24, R35). -/
abbrev PcWord := BitVec 9

end Sys2Proof
end

