-- ==== Sys2Proof/Config.lean ====
section
/-! DEFINITION. The implementation parameters of spec/00_scope.md R4, at the values the rule gives them.
`OPCODE_MAP` stands in Decode.lean and `FLAG_LAYOUT` in Machine/Flags.lean, beside the code that reads them. -/

namespace Sys2Proof

/-- The index of a general register: `NREG` = 8, indices 0 to 7 (R4, R20). -/
abbrev Reg := Fin 8

namespace Config

/-- `SP_INDEX`: register R7 is the stack pointer (R4, R21). -/
abbrev spIndex : Reg := 7

/-- `SP_RESET` (R4, R23). -/
abbrev spReset : Byte := 0xF4

/-- `PC_RESET` (R4, R26). -/
abbrev pcReset : PcWord := 0

/-- `MEM_SIZE`: cells 0 to 255 exist (R4, R50). -/
abbrev memSize : Nat := 256

/-- What a cell reads as that nothing has written: memory is zeroed before the program is loaded (R50, R243). -/
abbrev blankByte : Byte := 0

/-- The longest instruction, in bytes (R70). -/
abbrev maxLength : Nat := 3

/-- `FAULT_EXIT_STATUS` (R4, R38). UNVERIFIED: the source asks only for a non-zero value (log entry 20). -/
abbrev faultExitStatus : Byte := 1

end Config

end Sys2Proof
end

