-- ==== Sys2Proof/Syntax.lean ====
section
/-! DEFINITION. The instructions of the CORE ISA, one constructor per row of spec/opcode_table.json.
An operand is the byte that stands in the instruction (spec/30_encoding.md R71, R74, R79): a register operand is its
whole index byte, so an index above 7 can be written down; WellFormed.lean is the check that refuses it. -/

namespace Sys2Proof

/-- The thirteen operations (R72), in the opcode table's order. -/
inductive Op where
  | halt | loadImmediate | printReg | add | mul | push | pop | call | ret | compare | jump | jumpIfEqual
  | jumpIfNotEqual
  deriving DecidableEq, Repr

/-- The four instruction formats (R71). -/
inductive Format where
  /-- No operand. -/
  | n
  /-- One register. -/
  | r
  /-- Two registers. -/
  | rr
  /-- A register and an 8-bit immediate. -/
  | ri
  deriving DecidableEq, Repr

/-- An instruction with its operand bytes: `op1` first, then `op2` (R79). -/
inductive Instr where
  /-- HALT (R120). -/
  | halt
  /-- LOAD_IMMEDIATE dest, imm8 (R122). -/
  | loadImmediate (dest imm : Byte)
  /-- PRINT_REG src (R124). -/
  | printReg (src : Byte)
  /-- ADD a, b (R100). -/
  | add (a b : Byte)
  /-- MUL a, b (R102). -/
  | mul (a b : Byte)
  /-- PUSH src (R141). -/
  | push (src : Byte)
  /-- POP dest (R143). -/
  | pop (dest : Byte)
  /-- CALL target (R161). -/
  | call (target : Byte)
  /-- RETURN (R163). -/
  | ret
  /-- COMPARE a, b (R104). -/
  | compare (a b : Byte)
  /-- JUMP target (R165). -/
  | jump (target : Byte)
  /-- JUMP_IF_EQUAL target (R167). -/
  | jumpIfEqual (target : Byte)
  /-- JUMP_IF_NOT_EQUAL target (R169). -/
  | jumpIfNotEqual (target : Byte)
  deriving DecidableEq, Repr

end Sys2Proof
end

