-- ==== Sys2Proof/WellFormed.lean ====
section
/-! DEFINITION. Which instructions are well formed: every register operand names one of the eight registers
(spec/30_encoding.md R78, R79). The immediate of LOAD_IMMEDIATE is no register operand and is never checked. -/

namespace Sys2Proof

/-- A register operand byte names a register (R78). -/
def namesRegister (r : Byte) : Bool := decide (r.toNat ≤ 7)

/-- Every register operand of the instruction names a register (R78, R79). -/
def Instr.wellFormed : Instr → Bool
  | .halt => true
  | .loadImmediate dest _ => namesRegister dest
  | .printReg src => namesRegister src
  | .add a b => namesRegister a && namesRegister b
  | .mul a b => namesRegister a && namesRegister b
  | .push src => namesRegister src
  | .pop dest => namesRegister dest
  | .call target => namesRegister target
  | .ret => true
  | .compare a b => namesRegister a && namesRegister b
  | .jump target => namesRegister target
  | .jumpIfEqual target => namesRegister target
  | .jumpIfNotEqual target => namesRegister target

end Sys2Proof
end

