-- ==== Sys2Proof/Decode.lean ====
section
/-! DEFINITION. The instruction decoder and the encoder, both written from the tables of spec/30_encoding.md
(R71, R72, R78, R79, R80). The decoder is total on any list of bytes and rejects by name; `OPCODE_MAP` is a parameter
of both (R4, R72) with the default map `opcodeByte`. -/

namespace Sys2Proof

/-- An assignment of an opcode byte to every operation: the parameter `OPCODE_MAP` (R4, R72). -/
abbrev OpcodeMap := Op → Byte

/-- No two operations share an opcode byte: what R72 asks of any assignment. -/
def OpcodeMap.Injective (m : OpcodeMap) : Prop := ∀ o o', m o = m o' → o = o'

/-- The default `OPCODE_MAP` of R72. UNVERIFIED: the source gives no byte value (D2, log entry 1). -/
def opcodeByte : OpcodeMap
  | .halt => 0x01
  | .loadImmediate => 0x82
  | .printReg => 0x47
  | .add => 0xA0
  | .mul => 0xA2
  | .push => 0x45
  | .pop => 0x46
  | .call => 0x50
  | .ret => 0x11
  | .compare => 0xA7
  | .jump => 0x54
  | .jumpIfEqual => 0x55
  | .jumpIfNotEqual => 0x56

/-- All operations, in the order of R72. -/
def Op.all : List Op :=
  [.halt, .loadImmediate, .printReg, .add, .mul, .push, .pop, .call, .ret, .compare, .jump, .jumpIfEqual,
   .jumpIfNotEqual]

/-- The format column of R71 and R72. -/
def Op.format : Op → Format
  | .halt => .n
  | .loadImmediate => .ri
  | .printReg => .r
  | .add => .rr
  | .mul => .rr
  | .push => .r
  | .pop => .r
  | .call => .r
  | .ret => .n
  | .compare => .rr
  | .jump => .r
  | .jumpIfEqual => .r
  | .jumpIfNotEqual => .r

/-- How many operand bytes follow the opcode byte (R71). -/
def Format.operandCount : Format → Nat
  | .n => 0
  | .r => 1
  | .rr => 2
  | .ri => 2

/-- The length of an instruction in bytes: opcode plus operands (R70, R71). -/
def Op.length (o : Op) : Nat := 1 + o.format.operandCount

/-- The instruction of an operation and its operand bytes; a format that has fewer operands ignores the rest. -/
def Op.build : Op → (op1 op2 : Byte) → Instr
  | .halt, _, _ => .halt
  | .loadImmediate, op1, op2 => .loadImmediate op1 op2
  | .printReg, op1, _ => .printReg op1
  | .add, op1, op2 => .add op1 op2
  | .mul, op1, op2 => .mul op1 op2
  | .push, op1, _ => .push op1
  | .pop, op1, _ => .pop op1
  | .call, op1, _ => .call op1
  | .ret, _, _ => .ret
  | .compare, op1, op2 => .compare op1 op2
  | .jump, op1, _ => .jump op1
  | .jumpIfEqual, op1, _ => .jumpIfEqual op1
  | .jumpIfNotEqual, op1, _ => .jumpIfNotEqual op1

/-- The register operands of an instruction, `op1` before `op2` (R79). -/
def Instr.regOperands : Instr → List Byte
  | .halt => []
  | .loadImmediate dest _ => [dest]
  | .printReg src => [src]
  | .add a b => [a, b]
  | .mul a b => [a, b]
  | .push src => [src]
  | .pop dest => [dest]
  | .call target => [target]
  | .ret => []
  | .compare a b => [a, b]
  | .jump target => [target]
  | .jumpIfEqual target => [target]
  | .jumpIfNotEqual target => [target]

/-- The first register operand that names no register, if there is one (R78). -/
def Instr.firstBadRegister (i : Instr) : Option Byte := i.regOperands.find? (fun r => decide (7 < r.toNat))

/-- What the decoder answers on a list of bytes. -/
inductive Decoded where
  /-- An instruction, and the bytes after it. -/
  | ok (i : Instr) (rest : List Byte)
  /-- The instruction needs a byte at offset `missing` from its opcode and the list ends before it (R76). -/
  | truncated (missing : Nat)
  /-- The opcode byte is not in the opcode map (R77). -/
  | unknownOpcode (b : Byte)
  /-- A register operand byte is above 7 (R78). -/
  | badRegister (r : Byte)
  deriving DecidableEq, Repr

/-- The operation an opcode byte selects, matching all 8 bits (R72, R77). -/
def opOfByte (m : OpcodeMap) (b : Byte) : Option Op := Op.all.find? (fun o => m o == b)

/-- The decoder's second stage: the operand bytes of a known operation. All of them are there, or the first missing
one is reported (R76); then every register operand is checked (R78). -/
def decodeOperands (o : Op) (operands : List Byte) : Decoded :=
  if operands.length < o.format.operandCount then .truncated (1 + operands.length)
  else
    let i := o.build (operands.getD 0 0) (operands.getD 1 0)
    match i.firstBadRegister with
    | some r => .badRegister r
    | none => .ok i (operands.drop o.format.operandCount)

/-- The decoder under an opcode map: its checks in the order of R80. -/
def decodeWith (m : OpcodeMap) : List Byte → Decoded
  | [] => .truncated 0
  | b :: operands =>
    match opOfByte m b with
    | none => .unknownOpcode b
    | some o => decodeOperands o operands

/-- The decoder under the default opcode map. -/
def decode (bytes : List Byte) : Decoded := decodeWith opcodeByte bytes

/-! ### The encoder -/

/-- The operation of an instruction (R72). -/
def Instr.op : Instr → Op
  | .halt => .halt
  | .loadImmediate _ _ => .loadImmediate
  | .printReg _ => .printReg
  | .add _ _ => .add
  | .mul _ _ => .mul
  | .push _ => .push
  | .pop _ => .pop
  | .call _ => .call
  | .ret => .ret
  | .compare _ _ => .compare
  | .jump _ => .jump
  | .jumpIfEqual _ => .jumpIfEqual
  | .jumpIfNotEqual _ => .jumpIfNotEqual

/-- The operand bytes at `pc+1` and `pc+2`, in address order (R53, R71). -/
def Instr.operandBytes : Instr → List Byte
  | .halt => []
  | .loadImmediate dest imm => [dest, imm]
  | .printReg src => [src]
  | .add a b => [a, b]
  | .mul a b => [a, b]
  | .push src => [src]
  | .pop dest => [dest]
  | .call target => [target]
  | .ret => []
  | .compare a b => [a, b]
  | .jump target => [target]
  | .jumpIfEqual target => [target]
  | .jumpIfNotEqual target => [target]

/-- The length of an instruction in bytes (R70). -/
def Instr.length (i : Instr) : Nat := i.op.length

/-- The bytes of an instruction under an opcode map: the opcode, then its operands (R53, R71, R72). -/
def encodeWith (m : OpcodeMap) (i : Instr) : List Byte := m i.op :: i.operandBytes

/-- The bytes of an instruction under the default opcode map. -/
def encode (i : Instr) : List Byte := encodeWith opcodeByte i

/-! ### The opcode table's numbering of bits -/

/-- The bytes, lowest address first, of an instruction whose `nbits` bits are `w` (bit 0 is the least significant bit
of the first byte); the bytes above `nbits` are 0, up to the longest instruction. -/
def tableWordBytes (nbits w : Nat) : List Byte :=
  let v := w % 2 ^ nbits
  [BitVec.ofNat 8 v, BitVec.ofNat 8 (v / 256), BitVec.ofNat 8 (v / 65536)]

/-- The instruction the decoder reads from a word of the opcode table; none where it rejects the word. -/
def decodeTableWord (nbits w : Nat) : Option Instr :=
  match decode (tableWordBytes nbits w) with
  | .ok i _ => some i
  | .truncated _ => none
  | .unknownOpcode _ => none
  | .badRegister _ => none

end Sys2Proof
end

