-- ==== Sys2Proof/Machine/State.lean ====
section
/-! DEFINITION. The state of the block and of the memory it runs against: the record of spec/10_state.md R41, as plain
data; the state right after reset; and the reasons a step can stop. -/

namespace Sys2Proof.Machine

/-- The comparison flag: exactly one of four states (R28). -/
inductive Flag where
  /-- No COMPARE has executed since reset. -/
  | unset
  /-- The last COMPARE found its operands equal. -/
  | eq
  /-- The last COMPARE found its first operand less than its second. -/
  | lt
  /-- The last COMPARE found its first operand greater than its second. -/
  | gt
  deriving DecidableEq, Repr

/-- The lifecycle state (R33). -/
inductive Life where
  /-- The block steps. -/
  | running
  /-- HALT has executed; terminal. -/
  | halted
  /-- An instruction has raised a fault; terminal. -/
  | faulted
  deriving DecidableEq, Repr

/-- The five fault causes (R201). -/
inductive Cause where
  /-- A byte of the instruction lies above address 255. -/
  | fetchRange
  /-- The opcode byte is not in the opcode map. -/
  | unknownOpcode
  /-- A register operand byte is above 7. -/
  | badRegister
  /-- CALL's return address does not fit a byte cell. -/
  | returnRange
  /-- The stack pointer would leave the range 0 to 255. -/
  | stackRange
  deriving DecidableEq, Repr

/-- The fault record (R35): `FCAUSE`, `FPC`, `FOPC` and `FDETAIL`. -/
structure FaultRecord where
  cause : Cause
  fpc : PcWord
  fopc : Byte
  detail : PcWord
  deriving DecidableEq, Repr

/-- The contents of memory: the cells that do not hold `Config.blankByte`, by rising address (`Memory.wf`, Ops.lean). -/
abbrev Memory := List Host.Cell

/-- The whole state (R41). -/
structure State where
  /-- The general registers R0 to R7; R7 is the stack pointer (R20, R21). -/
  regs : Vector Byte 8
  /-- The program counter, 0 to 256 (R24). -/
  pc : PcWord
  /-- The comparison flag (R27). -/
  flag : Flag
  /-- The lifecycle state (R33). -/
  life : Life
  /-- The fault record, present when the block is Faulted (R35, R41). -/
  fault : Option FaultRecord
  /-- The output events, in the order they were emitted (R36). -/
  out : List Byte
  /-- The memory the block runs against (R50). -/
  mem : Memory
  deriving DecidableEq, Repr

/-- The state right after reset (R241) against a memory the environment has zeroed and no program has been loaded into
(R243 for the empty program; log entry 2). -/
def State.reset : State :=
  { regs := #v[0, 0, 0, 0, 0, 0, 0, Config.spReset]
    pc := Config.pcReset
    flag := .unset
    life := .running
    fault := none
    out := []
    mem := [] }

/-- Why a step stops. The ISA's own faults are not here: a fault entry (R202) is a next state. -/
inductive Fault where
  /-- `step` answers this when the block is Halted: it has no step (R81). Safe: no step is invented. -/
  | blockHalted
  /-- `step` answers this when the block is Faulted: it has no step (R81). Safe: no step is invented. -/
  | blockFaulted
  deriving DecidableEq, Repr

/-- Why the model gives no meaning. -/
inductive Refusal where
  /-- The refused arms of `exec` answer this for an instruction without a meaning; no arm does. Safe. -/
  | notModelled (mnemonic : String)
  /-- `bootFile` and `boot` answer this for a program file that is a load error: the block is never released from
  reset (R245, R246). No step raises it. Safe: no run begins. -/
  | loadError
  deriving DecidableEq, Repr

end Sys2Proof.Machine
end

