-- ==== Sys2Proof/Machine/Flags.lean ====
section
/-! DEFINITION. The flag computation of COMPARE (spec/40_alu.md R104), the test of the conditional jumps
(spec/43_branch.md R166) and the flag's byte layout (spec/10_state.md R29). No other flag exists (R30). -/

namespace Sys2Proof.Machine

/-- COMPARE's flag: equality first, then less, then greater, unsigned (R104). -/
def compareFlag (a b : Byte) : Flag :=
  if a.toNat = b.toNat then .eq else if a.toNat < b.toNat then .lt else .gt

/-- The one test the conditional jumps make: Unset, LT and GT all count as not equal (R166). -/
def Flag.isEq : Flag → Bool
  | .eq => true
  | .unset => false
  | .lt => false
  | .gt => false

/-- `FLAG_LAYOUT` (R29). UNVERIFIED: general knowledge of the spec's writer; no program observes it (log entry 21). -/
def Flag.toByte : Flag → Byte
  | .unset => 0x00
  | .eq => 0x01
  | .gt => 0x02
  | .lt => 0x04

end Sys2Proof.Machine
end

