-- ==== Sys2Proof/Machine/Ops.lean ====
section
/-! DEFINITION. The named operations over memory, registers, the program counter, the output list and the lifecycle
state that the meanings are written with (spec/00_scope.md R7), and fault entry (spec/60_exceptions.md R202). The ISA
has no return from a fault (R206): only `State.resetBlock` leaves a terminal state (R240). -/

namespace Sys2Proof.Machine

/-! ### Memory: 256 byte cells, kept in one canonical form -/

/-- The content of cell `a`; an unlisted cell reads as `Config.blankByte` (R50, R243). -/
def Memory.read : Memory → Nat → Byte
  | [], _ => Config.blankByte
  | (b, v) :: rest, a => if b = a then v else Memory.read rest a

/-- The memory without any entry for cell `a`. -/
def Memory.erase (m : Memory) (a : Nat) : Memory := m.filter (fun c => c.1 != a)

/-- The memory with an entry for cell `a` put in at its place. -/
def Memory.insert : Memory → Nat → Byte → Memory
  | [], a, v => [(a, v)]
  | (b, w) :: rest, a, v => if a < b then (a, v) :: (b, w) :: rest else (b, w) :: Memory.insert rest a v

/-- The memory with `v` in cell `a`; a value that an unlisted cell reads as leaves no entry. -/
def Memory.write (m : Memory) (a : Nat) (v : Byte) : Memory :=
  if v = Config.blankByte then m.erase a else (m.erase a).insert a v

/-- The canonical form from address `low` on: addresses rise strictly, exist, and no entry is blank. -/
def Memory.wfFrom (low : Nat) : Memory → Bool
  | [] => true
  | (a, v) :: rest =>
    decide (low ≤ a) && decide (a < Config.memSize) && decide (v ≠ Config.blankByte) && Memory.wfFrom (a + 1) rest

/-- The canonical form of a memory. -/
def Memory.wf (m : Memory) : Bool := Memory.wfFrom 0 m

/-- `MemRead(a, 1)` (R7). -/
def State.readByte (s : State) (a : Byte) : Byte := s.mem.read a.toNat

/-- `MemWrite(a, 1, v)` (R7). -/
def State.writeByte (s : State) (a v : Byte) : State := { s with mem := s.mem.write a.toNat v }

/-! ### Registers and the stack pointer -/

/-- `x[r]` (R7). -/
def State.reg (s : State) (r : Reg) : Byte := s.regs[r]

/-- `x[r] <- v` (R7). -/
def State.setReg (s : State) (r : Reg) (v : Byte) : State := { s with regs := s.regs.set r v }

/-- `SP`, another name for `x[7]` (R7, R21). -/
def State.sp (s : State) : Byte := s.reg Config.spIndex

/-- `x[7] <- v`. -/
def State.setSp (s : State) (v : Byte) : State := s.setReg Config.spIndex v

/-- The cell a PUSH or CALL stores to: the one SP points to after its decrement (R51, R57). -/
def State.pushAddress (s : State) : Byte := BitVec.ofNat 8 (s.sp.toNat - 1)

/-- `SP <- SP - 1`, or none where SP is 0 and would leave its range (R142). -/
def State.decSp (s : State) : Option State := if s.sp.toNat = 0 then none else some (s.setSp s.pushAddress)

/-- `SP <- SP + 1`, or none where SP is 255 and would leave its range (R142). -/
def State.incSp (s : State) : Option State :=
  if s.sp.toNat = 255 then none else some (s.setSp (BitVec.ofNat 8 (s.sp.toNat + 1)))

/-! ### The program counter, the flag, the output list and the end of a run -/

/-- `zext_9(v)` (R6). -/
def zext9 (v : Byte) : PcWord := v.setWidth 9

/-- `pc <- pc + n`. In every state a fetched instruction runs in, the sum is at most 256 (log entry 8). -/
def State.advance (s : State) (n : Nat) : State := { s with pc := s.pc + BitVec.ofNat 9 n }

/-- `pc <- zext_9(target)` (R160). -/
def State.jumpTo (s : State) (target : Byte) : State := { s with pc := zext9 target }

/-- `flag <- f`. -/
def State.setFlag (s : State) (f : Flag) : State := { s with flag := f }

/-- `Emit(v)`: append to the output list (R7, R36). -/
def State.emit (s : State) (v : Byte) : State := { s with out := s.out ++ [v] }

/-- `Halt()`: the block enters Halted (R7, R33). -/
def State.halt (s : State) : State := { s with life := .halted }

/-! ### Fault entry -/

/-- The opcode byte the fault record holds: the byte at `pc`, or 0 where no opcode can be fetched (R35, R202). -/
def State.opcodeAtPc (s : State) : Byte := if s.pc.toNat ≤ 255 then s.mem.read s.pc.toNat else 0

/-- Fault entry (R202), from the state before the faulting instruction began: the block enters Faulted and the record
is filled; registers, memory, flag, output list and `pc` stay. -/
def State.raise (s : State) (cause : Cause) (detail : Nat) : State :=
  { s with
    life := .faulted
    fault := some { cause := cause, fpc := s.pc, fopc := s.opcodeAtPc, detail := BitVec.ofNat 9 detail } }

/-- The cause codes of R201. -/
def Cause.code : Cause → BitVec 3
  | .fetchRange => 1
  | .unknownOpcode => 2
  | .badRegister => 3
  | .returnRange => 4
  | .stackRange => 5

/-! ### Reset -/

/-- The block's reset: every piece of block state at its reset value, memory untouched (R240, R241). -/
def State.resetBlock (s : State) : State := { State.reset with mem := s.mem }

end Sys2Proof.Machine
end

