-- ==== Sys2Proof/Machine/Operands.lean ====
section
/-! DEFINITION. Operand forms (spec/30_encoding.md R74, R78, R79): a register operand byte names a register by its
whole value; one above 7 is the fault BadRegister. The immediate of LOAD_IMMEDIATE is its byte, used as it stands. -/

namespace Sys2Proof.Machine

/-- The register an operand byte names, without masking; none above 7 (R74, R78). -/
def regOfByte (b : Byte) : Option Reg := if h : b.toNat < 8 then some ⟨b.toNat, h⟩ else none

/-- The operand byte that names a register. -/
def byteOfReg (r : Reg) : Byte := BitVec.ofNat 8 r.val

/-- Run `k` on the register an operand byte names, or raise BadRegister with the byte as detail (R78). A meaning takes
its operands through this, `op1` outermost, before anything else it checks (R204). -/
def withReg (b : Byte) (s : State) (k : Reg → Host.Outcome State Fault Refusal) :
    Host.Outcome State Fault Refusal :=
  match regOfByte b with
  | some r => k r
  | none => .next (s.raise .badRegister b.toNat)

end Sys2Proof.Machine
end

