-- ==== Sys2Proof/Machine/Alu.lean ====
section
/-! DEFINITION. ADD, MUL and COMPARE (spec/40_alu.md). -/

namespace Sys2Proof.Machine

/-- The ALU's sum: exact, then reduced modulo 256 (R100, R106). UNVERIFIED: the width is D1 (log entry 10). -/
def aluAdd (a b : Byte) : Byte := BitVec.ofNat 8 ((a.toNat + b.toNat) % 256)

/-- The ALU's product: exact, then its low 8 bits (R102, R106). UNVERIFIED: D1, D11 (log entry 10). -/
def aluMul (a b : Byte) : Byte := BitVec.ofNat 8 ((a.toNat * b.toNat) % 256)

/-- ADD a, b (R100). -/
def execAdd (a b : Byte) (s : State) : Host.Outcome State Fault Refusal :=
  withReg a s fun ra => withReg b s fun rb =>
    .next ((s.setReg ra (aluAdd (s.reg ra) (s.reg rb))).advance 3)

/-- MUL a, b (R102). -/
def execMul (a b : Byte) (s : State) : Host.Outcome State Fault Refusal :=
  withReg a s fun ra => withReg b s fun rb =>
    .next ((s.setReg ra (aluMul (s.reg ra) (s.reg rb))).advance 3)

/-- COMPARE a, b (R104). -/
def execCompare (a b : Byte) (s : State) : Host.Outcome State Fault Refusal :=
  withReg a s fun ra => withReg b s fun rb =>
    .next ((s.setFlag (compareFlag (s.reg ra) (s.reg rb))).advance 3)

end Sys2Proof.Machine
end

