-- ==== Sys2Proof/Machine/Branch.lean ====
section
/-! DEFINITION. CALL, RETURN, JUMP and the two conditional jumps (spec/43_branch.md). -/

namespace Sys2Proof.Machine

/-- CALL target (R161): the return address is the exact `pc + 2`; the target register is read after SP has moved, so
CALL R7 jumps to the decremented SP. UNVERIFIED for R7: D12 (log entry 9). -/
def execCall (target : Byte) (s : State) : Host.Outcome State Fault Refusal :=
  withReg target s fun rt =>
    let returnAddress := s.pc.toNat + 2
    if 255 < returnAddress then .next (s.raise .returnRange returnAddress)
    else
      match s.decSp with
      | none => .next (s.raise .stackRange 0)
      | some s1 => .next ((s1.writeByte s1.sp (BitVec.ofNat 8 returnAddress)).jumpTo (s1.reg rt))

/-- RETURN (R163): no check that the byte came from a CALL (D26). -/
def execRet (s : State) : Host.Outcome State Fault Refusal :=
  match s.incSp with
  | none => .next (s.raise .stackRange 255)
  | some s1 => .next (s1.jumpTo (s.readByte s.sp))

/-- JUMP target (R165). -/
def execJump (target : Byte) (s : State) : Host.Outcome State Fault Refusal :=
  withReg target s fun rt => .next (s.jumpTo (s.reg rt))

/-- JUMP_IF_EQUAL target (R167). -/
def execJumpIfEqual (target : Byte) (s : State) : Host.Outcome State Fault Refusal :=
  withReg target s fun rt => if s.flag.isEq then .next (s.jumpTo (s.reg rt)) else .next (s.advance 2)

/-- JUMP_IF_NOT_EQUAL target (R169): an Unset flag counts as not equal. UNVERIFIED for Unset: D8 (log entry 11). -/
def execJumpIfNotEqual (target : Byte) (s : State) : Host.Outcome State Fault Refusal :=
  withReg target s fun rt => if s.flag.isEq then .next (s.advance 2) else .next (s.jumpTo (s.reg rt))

end Sys2Proof.Machine
end

