-- ==== Sys2Proof/Machine/Control.lean ====
section
/-! DEFINITION. HALT, LOAD_IMMEDIATE and PRINT_REG (spec/41_control.md). -/

namespace Sys2Proof.Machine

/-- HALT (R120): `pc` moves past it, then the block stops. -/
def execHalt (s : State) : Host.Outcome State Fault Refusal := .next (s.advance 1).halt

/-- LOAD_IMMEDIATE dest, imm (R122). -/
def execLoadImmediate (dest imm : Byte) (s : State) : Host.Outcome State Fault Refusal :=
  withReg dest s fun rd => .next ((s.setReg rd imm).advance 3)

/-- PRINT_REG src (R124). -/
def execPrintReg (src : Byte) (s : State) : Host.Outcome State Fault Refusal :=
  withReg src s fun rs => .next ((s.emit (s.reg rs)).advance 2)

end Sys2Proof.Machine
end

