-- ==== Sys2Proof/Machine/Stack.lean ====
section
/-! DEFINITION. PUSH and POP (spec/42_stack.md). A fault is raised from the state before the instruction, so nothing of
a faulting instruction survives (spec/00_scope.md R8). -/

namespace Sys2Proof.Machine

/-- PUSH src (R141): SP moves first, so PUSH R7 stores the decremented SP. UNVERIFIED for R7: D12 (log entry 9). -/
def execPush (src : Byte) (s : State) : Host.Outcome State Fault Refusal :=
  withReg src s fun rs =>
    match s.decSp with
    | none => .next (s.raise .stackRange 0)
    | some s1 => .next ((s1.writeByte s1.sp (s1.reg rs)).advance 2)

/-- POP dest (R143): the register is written first and SP moves from what it then holds, so POP R7 leaves the popped
value plus 1. UNVERIFIED for R7: D12 (log entry 9). -/
def execPop (dest : Byte) (s : State) : Host.Outcome State Fault Refusal :=
  withReg dest s fun rd =>
    match (s.setReg rd (s.readByte s.sp)).incSp with
    | none => .next (s.raise .stackRange 255)
    | some s1 => .next (s1.advance 2)

end Sys2Proof.Machine
end

