-- ==== Sys2Proof/Machine/Dispatch.lean ====
section
/-! DEFINITION. One arm per constructor of Instr: each instruction's meaning. -/

namespace Sys2Proof.Machine

def exec (i : Instr) (s : State) : Host.Outcome State Fault Refusal :=
  match i with
  | .halt => Sys2Proof.Machine.execHalt s
  | .loadImmediate dest imm => Sys2Proof.Machine.execLoadImmediate dest imm s
  | .printReg src => Sys2Proof.Machine.execPrintReg src s
  | .add a b => Sys2Proof.Machine.execAdd a b s
  | .mul a b => Sys2Proof.Machine.execMul a b s
  | .push src => Sys2Proof.Machine.execPush src s
  | .pop dest => Sys2Proof.Machine.execPop dest s
  | .call target => Sys2Proof.Machine.execCall target s
  | .ret => Sys2Proof.Machine.execRet s
  | .compare a b => Sys2Proof.Machine.execCompare a b s
  | .jump target => Sys2Proof.Machine.execJump target s
  | .jumpIfEqual target => Sys2Proof.Machine.execJumpIfEqual target s
  | .jumpIfNotEqual target => Sys2Proof.Machine.execJumpIfNotEqual target s

end Sys2Proof.Machine
end

