-- ==== Sys2Proof/Machine/Fetch.lean ====
section
/-! DEFINITION. Fetching an instruction's bytes (spec/30_encoding.md R76, R80) and the fault entry of each way the
decoder rejects them; and storing an instruction where the next step fetches it. -/

namespace Sys2Proof.Machine

/-- The byte at address `a`, which exists only up to 255 (R76). -/
def State.fetchByte (s : State) (a : Nat) : Option Byte := if a ≤ 255 then some (s.mem.read a) else none

/-- The bytes from `pc` on that exist, up to the longest instruction; the decoder takes from them exactly the bytes of
the instruction (R75), and the list ends where the address space does (R76). -/
def State.fetchBytes (s : State) : List Byte :=
  (List.range Config.maxLength).filterMap (fun k => s.fetchByte (s.pc.toNat + k))

/-- What the decoder answers at `pc`. -/
def State.decodeAtPc (s : State) : Decoded := decode s.fetchBytes

/-- The byte at offset `missing` lies above address 255: FetchRange with that address (R76). -/
def State.raiseFetchRange (s : State) (missing : Nat) : State := s.raise .fetchRange (s.pc.toNat + missing)

/-- UnknownOpcode with the opcode byte (R77). -/
def State.raiseUnknownOpcode (s : State) (b : Byte) : State := s.raise .unknownOpcode b.toNat

/-- BadRegister with the operand byte (R78). -/
def State.raiseBadRegister (s : State) (r : Byte) : State := s.raise .badRegister r.toNat

/-- Store bytes from address `a` upward; a byte above address 255 has no cell and is dropped. -/
def Memory.storeFrom (m : Memory) (a : Nat) : List Byte → Memory
  | [] => m
  | v :: rest => Memory.storeFrom (if a < Config.memSize then m.write a v else m) (a + 1) rest

/-- The bytes stored where the next step fetches its instruction. -/
def State.storeAtPc (s : State) (bytes : List Byte) : State :=
  { s with mem := s.mem.storeFrom s.pc.toNat bytes }

end Sys2Proof.Machine
end

