-- ==== Sys2Proof/Machine/Step.lean ====
section
/-! DEFINITION. One step of the block: the execution cycle of spec/30_encoding.md R80, and no step in a terminal state
(R81). -/

namespace Sys2Proof.Machine

/-- One whole instruction, from its opcode fetch to its commit or fault (R80). A fault entry is a next state (R202). -/
def step (s : State) : Host.Outcome State Fault Refusal :=
  match s.life with
  | .halted => .fault .blockHalted
  | .faulted => .fault .blockFaulted
  | .running =>
    match s.decodeAtPc with
    | .ok i _ => exec i s
    | .truncated missing => .next (s.raiseFetchRange missing)
    | .unknownOpcode b => .next (s.raiseUnknownOpcode b)
    | .badRegister r => .next (s.raiseBadRegister r)

/-- The state with an instruction of the opcode table stored where `step` fetches next; it stands for the loader's
writes (R244; log entries 3 and 4) and changes nothing but memory. -/
def State.withFetchWord (s : State) (nbits w : Nat) : State := s.storeAtPc (tableWordBytes nbits w)

end Sys2Proof.Machine
end

