-- ==== Sys2Proof/Machine/Loader.lean ====
section
/-! DEFINITION. Boot as the block sees it (spec/70_reset_and_hazards.md R243 to R246) and the program file the loader
reads (spec/30_encoding.md R85). A load error is a refusal: the block is never released from reset (R245). -/

namespace Sys2Proof.Machine

/-- White space around a literal: space, tab and carriage return (log entry 17). -/
def isBlankChar (c : Char) : Bool := c == ' ' || c == '\t' || c == '\r'

/-- A line without the white space at its ends. -/
def trimBlanks (line : List Char) : List Char :=
  ((line.dropWhile isBlankChar).reverse.dropWhile isBlankChar).reverse

/-- A line without its `#` comment (R85). -/
def stripComment (line : List Char) : List Char := line.takeWhile (fun c => c != '#')

/-- The value of binary digits after a value `acc`; none at any other character. -/
def binaryValueFrom (acc : Nat) : List Char → Option Nat
  | [] => some acc
  | c :: rest =>
    if c == '0' then binaryValueFrom (2 * acc) rest
    else if c == '1' then binaryValueFrom (2 * acc + 1) rest
    else none

/-- What the loader makes of one line (R85). -/
inductive LoadedLine where
  /-- Blank after stripping: skipped. -/
  | skip
  /-- One program byte. -/
  | byte (v : Byte)
  /-- A load error: no binary literal, or a value above 255. -/
  | malformed
  deriving DecidableEq, Repr

/-- One line of a program file (R85). -/
def loadLine (line : List Char) : LoadedLine :=
  match trimBlanks (stripComment line) with
  | [] => .skip
  | literal =>
    match binaryValueFrom 0 literal with
    | none => .malformed
    | some v => if v ≤ 255 then .byte (BitVec.ofNat 8 v) else .malformed

/-- The lines of a text, which newline characters separate. -/
def splitLines : List Char → List (List Char)
  | [] => [[]]
  | c :: rest =>
    if c == '\n' then [] :: splitLines rest
    else
      match splitLines rest with
      | [] => [[c]]
      | line :: more => (c :: line) :: more

/-- The program bytes of a list of lines, in file order; none at a malformed line (R85). -/
def loadLines : List (List Char) → Option (List Byte)
  | [] => some []
  | line :: more =>
    match loadLine line with
    | .malformed => none
    | .skip => loadLines more
    | .byte v => (loadLines more).map (v :: ·)

/-- One binary digit. -/
def bitChar (b : Bool) : Char := if b then '1' else '0'

/-- The value of a list of bits, most significant first (R5). -/
def bitsValue (bits : List Bool) : Nat := bits.foldl (fun acc b => 2 * acc + b.toNat) 0

/-- A radix-2 literal: its bits as digits, most significant first. -/
def binaryLiteral (bits : List Bool) : List Char := bits.map bitChar

/-- The text of a program file with these lines, a newline character after each. -/
def fileText (lines : List (List Char)) : List Char := lines.flatMap (fun line => line ++ ['\n'])

/-- A program byte as a line of a program file: its 8 binary digits, most significant first (R85). -/
def byteLine (v : Byte) : List Char := (List.range 8).map (fun k => bitChar (v.getLsbD (7 - k)))

/-- Boot (R244): memory zeroed, the program written from address 0, `rst` released. A program of more than 256 bytes
is a load error (R246). -/
def boot (program : List Byte) : Host.Outcome State Fault Refusal :=
  if program.length ≤ Config.memSize then .next { State.reset with mem := Memory.storeFrom [] 0 program }
  else .refused .loadError

/-- Boot from the text of a program file (R85, R244, R245). -/
def bootFile (text : List Char) : Host.Outcome State Fault Refusal :=
  match loadLines (splitLines text) with
  | none => .refused .loadError
  | some program => boot program

end Sys2Proof.Machine
end

