-- ==== Sys2Proof/Machine/Assembler.lean ====
section
/-! DEFINITION. The assembler syntax (spec/30_encoding.md R83, R84): a line of source text and the instruction it
names. It has no effect on what the block does. -/

namespace Sys2Proof.Machine

/-- The source's mnemonic (R72, R83). -/
def longName : Op → List Char
  | .halt => "HALT".toList
  | .loadImmediate => "LOAD_IMMEDIATE".toList
  | .printReg => "PRINT_REG".toList
  | .add => "ADD".toList
  | .mul => "MUL".toList
  | .push => "PUSH".toList
  | .pop => "POP".toList
  | .call => "CALL".toList
  | .ret => "RETURN".toList
  | .compare => "COMPARE".toList
  | .jump => "JUMP".toList
  | .jumpIfEqual => "JUMP_IF_EQUAL".toList
  | .jumpIfNotEqual => "JUMP_IF_NOT_EQUAL".toList

/-- The short alias (R72, R83). -/
def shortName : Op → List Char
  | .halt => "HLT".toList
  | .loadImmediate => "LDI".toList
  | .printReg => "PRN".toList
  | .add => "ADD".toList
  | .mul => "MUL".toList
  | .push => "PUSH".toList
  | .pop => "POP".toList
  | .call => "CALL".toList
  | .ret => "RET".toList
  | .compare => "CMP".toList
  | .jump => "JMP".toList
  | .jumpIfEqual => "JEQ".toList
  | .jumpIfNotEqual => "JNE".toList

/-- The operation a mnemonic names, by either name (R83, R84). -/
def opOfName (name : List Char) : Option Op :=
  Op.all.find? (fun o => longName o == name || shortName o == name)

/-- A register operand: `R0` to `R7`, or `SP` for `R7` (R83). -/
def parseRegister : List Char → Option Byte
  | ['S', 'P'] => some 7
  | ['R', d] => if '0'.toNat ≤ d.toNat && d.toNat ≤ '7'.toNat then some (BitVec.ofNat 8 (d.toNat - '0'.toNat)) else none
  | _ => none

/-- The value of a digit in a base up to 16. -/
def digitValue (base : Nat) (c : Char) : Option Nat :=
  let v :=
    if '0'.toNat ≤ c.toNat && c.toNat ≤ '9'.toNat then c.toNat - '0'.toNat
    else if 'a'.toNat ≤ c.toNat && c.toNat ≤ 'f'.toNat then c.toNat - 'a'.toNat + 10
    else if 'A'.toNat ≤ c.toNat && c.toNat ≤ 'F'.toNat then c.toNat - 'A'.toNat + 10
    else base
  if v < base then some v else none

/-- The value of digits after a value `acc`; none at a character that is no digit of the base. -/
def digitsValueFrom (base acc : Nat) : List Char → Option Nat
  | [] => some acc
  | c :: rest =>
    match digitValue base c with
    | none => none
    | some d => digitsValueFrom base (base * acc + d) rest

/-- A number with at least one digit. -/
def parseDigits (base : Nat) : List Char → Option Nat
  | [] => none
  | c :: rest => digitsValueFrom base 0 (c :: rest)

/-- An immediate: decimal, `0x` hexadecimal or `0b` binary, 0 to 255 (R83). -/
def parseImmediate (text : List Char) : Option Byte :=
  let value :=
    match text with
    | '0' :: 'x' :: digits => parseDigits 16 digits
    | '0' :: 'b' :: digits => parseDigits 2 digits
    | digits => parseDigits 10 digits
  match value with
  | some v => if v ≤ 255 then some (BitVec.ofNat 8 v) else none
  | none => none

/-- The comma-separated parts of an operand list, without the white space at their ends. -/
def splitCommas : List Char → List (List Char)
  | [] => [[]]
  | c :: rest =>
    if c == ',' then [] :: splitCommas rest
    else
      match splitCommas rest with
      | [] => [[c]]
      | part :: more => (c :: part) :: more

/-- The operands of an instruction in its format (R71, R83). -/
def parseOperands (o : Op) (operands : List (List Char)) : Option Instr :=
  match o.format, operands with
  | .n, [] => some (o.build 0 0)
  | .r, [a] => (parseRegister a).map (fun ra => o.build ra 0)
  | .rr, [a, b] => (parseRegister a).bind (fun ra => (parseRegister b).map (fun rb => o.build ra rb))
  | .ri, [a, b] => (parseRegister a).bind (fun ra => (parseImmediate b).map (fun v => o.build ra v))
  | _, _ => none

/-- The instruction a line of assembler text names (R83); none where the line is not in the syntax. -/
def assembleLine (line : List Char) : Option Instr :=
  let text := trimBlanks line
  let name := text.takeWhile (fun c => !isBlankChar c)
  let rest := trimBlanks (text.dropWhile (fun c => !isBlankChar c))
  match opOfName name with
  | none => none
  | some o => parseOperands o (if rest.isEmpty then [] else (splitCommas rest).map trimBlanks)

/-- The spelling of a register operand byte. -/
def registerText (r : Byte) : List Char := 'R' :: Nat.toDigits 10 r.toNat

/-- An instruction in assembler text, with its long mnemonic and decimal immediates (R83). -/
def disassemble (i : Instr) : List Char :=
  let name := longName i.op
  match i.op.format, i.operandBytes with
  | .r, [a] => name ++ [' '] ++ registerText a
  | .rr, [a, b] => name ++ [' '] ++ registerText a ++ [',', ' '] ++ registerText b
  | .ri, [a, v] => name ++ [' '] ++ registerText a ++ [',', ' '] ++ Nat.toDigits 10 v.toNat
  | _, _ => name

end Sys2Proof.Machine
end

