-- ==== Sys2Proof/Machine/Ports.lean ====
section
/-! DEFINITION. The block's ports (spec/10_state.md R35 to R38) and its debug view (spec/60_exceptions.md R228), as
functions of the state; and the transactions one step makes on the memory port and the output port (R37, R51). -/

namespace Sys2Proof.Machine

/-! ### Status outputs -/

/-- The `life` port (R37). -/
def Life.code : Life → BitVec 2
  | .running => 0b00
  | .halted => 0b01
  | .faulted => 0b10

/-- The `exit_status` port (R38). -/
def State.exitStatus (s : State) : Byte :=
  match s.life with
  | .running => 0
  | .halted => 0
  | .faulted => Config.faultExitStatus

/-- The `fault_cause` port: `FCAUSE`, 0 while there is no fault (R35). -/
def State.faultCause (s : State) : BitVec 3 :=
  match s.fault with
  | none => 0
  | some r => r.cause.code

/-- The `fault_pc` port: `FPC` (R35). -/
def State.faultPc (s : State) : PcWord :=
  match s.fault with
  | none => 0
  | some r => r.fpc

/-- The `fault_opcode` port: `FOPC` (R35). -/
def State.faultOpcode (s : State) : Byte :=
  match s.fault with
  | none => 0
  | some r => r.fopc

/-- The `fault_detail` port: `FDETAIL` (R35). -/
def State.faultDetail (s : State) : PcWord :=
  match s.fault with
  | none => 0
  | some r => r.detail

/-! ### The debug port and what the host makes of the ports -/

/-- What a trace line shows (R228): `pc`, the bytes at `pc`, `pc+1` and `pc+2` that exist, and the registers. The
column format is the host's (log entry 22). -/
structure TraceView where
  pc : PcWord
  bytes : List (Option Byte)
  regs : Vector Byte 8
  deriving DecidableEq, Repr

/-- The debug view of a state: read-only, and no state changes by reading it (R37, R228). -/
def State.traceView (s : State) : TraceView :=
  { pc := s.pc
    bytes := (List.range 3).map (fun k => s.fetchByte (s.pc.toNat + k))
    regs := s.regs }

/-- The lines the host prints: the decimal value of each output event, in order (R36). -/
def State.printedLines (s : State) : List String := s.out.map (fun v => v.toNat.repr)

/-! ### Transactions of one step -/

/-- A transaction on the memory port or the output port (R37). -/
inductive PortEvent where
  /-- A read of an instruction byte. -/
  | fetch (a v : Byte)
  /-- A data read (POP, RETURN). -/
  | dataRead (a v : Byte)
  /-- A data write (PUSH, CALL). -/
  | dataWrite (a v : Byte)
  /-- A pulse of `out_valid` with `out_data` (PRINT_REG). -/
  | output (v : Byte)
  deriving DecidableEq, Repr

/-- How many instruction bytes the decoder reads at `pc`: the opcode, then the operands up to the first that lies
above address 255; none after an unknown opcode (R75, R80). -/
def State.fetchCount (s : State) : Nat :=
  match s.fetchBytes with
  | [] => 0
  | b :: operands =>
    match opOfByte opcodeByte b with
    | none => 1
    | some o => 1 + min o.format.operandCount operands.length

/-- The instruction-byte reads of the step (R51, R75). -/
def State.fetchEvents (s : State) : List PortEvent :=
  (List.range s.fetchCount).map fun k =>
    .fetch (BitVec.ofNat 8 (s.pc.toNat + k)) (s.mem.read (s.pc.toNat + k))

/-- The data accesses and the output event of an instruction, up to its first failing check (R51, R57, R124). The
opcode byte of a fault record is the one already fetched, so fault entry makes no access (log entry 15). -/
def dataEvents (i : Instr) (s : State) : List PortEvent :=
  match i with
  | .printReg src =>
    match regOfByte src with
    | none => []
    | some rs => [.output (s.reg rs)]
  | .push src =>
    match regOfByte src, s.decSp with
    | some rs, some s1 => [.dataWrite s1.sp (s1.reg rs)]
    | _, _ => []
  | .pop dest =>
    match regOfByte dest with
    | none => []
    | some _ => [.dataRead s.sp (s.readByte s.sp)]
  | .call target =>
    match regOfByte target, s.decSp with
    | some _, some s1 =>
      if 255 < s.pc.toNat + 2 then [] else [.dataWrite s1.sp (BitVec.ofNat 8 (s.pc.toNat + 2))]
    | _, _ => []
  | .ret => [.dataRead s.sp (s.readByte s.sp)]
  | .halt => []
  | .loadImmediate _ _ => []
  | .add _ _ => []
  | .mul _ _ => []
  | .compare _ _ => []
  | .jump _ => []
  | .jumpIfEqual _ => []
  | .jumpIfNotEqual _ => []

/-- All transactions of the step from this state, in order; none in a terminal state (R37, R81). -/
def State.portEvents (s : State) : List PortEvent :=
  match s.life with
  | .running =>
    match s.decodeAtPc with
    | .ok i _ => s.fetchEvents ++ dataEvents i s
    | .truncated _ => s.fetchEvents
    | .unknownOpcode _ => s.fetchEvents
    | .badRegister _ => s.fetchEvents
  | .halted => []
  | .faulted => []

/-- The transaction is a read of an instruction byte. -/
def PortEvent.isFetch : PortEvent → Bool
  | .fetch _ _ => true
  | .dataRead _ _ => false
  | .dataWrite _ _ => false
  | .output _ => false

/-- The transaction is a data read. -/
def PortEvent.isDataRead : PortEvent → Bool
  | .fetch _ _ => false
  | .dataRead _ _ => true
  | .dataWrite _ _ => false
  | .output _ => false

/-- The transaction is a data write. -/
def PortEvent.isDataWrite : PortEvent → Bool
  | .fetch _ _ => false
  | .dataRead _ _ => false
  | .dataWrite _ _ => true
  | .output _ => false

/-- The transaction is an output event. -/
def PortEvent.isOutput : PortEvent → Bool
  | .fetch _ _ => false
  | .dataRead _ _ => false
  | .dataWrite _ _ => false
  | .output _ => true

/-- The address a transaction reads, if it is a read. -/
def PortEvent.readAddress : PortEvent → Option Byte
  | .fetch a _ => some a
  | .dataRead a _ => some a
  | .dataWrite _ _ => none
  | .output _ => none

/-- Memory after the writes among some transactions, in order. -/
def Memory.replay : Memory → List PortEvent → Memory
  | m, [] => m
  | m, .dataWrite a v :: rest => Memory.replay (m.write a.toNat v) rest
  | m, .fetch _ _ :: rest => Memory.replay m rest
  | m, .dataRead _ _ :: rest => Memory.replay m rest
  | m, .output _ :: rest => Memory.replay m rest

/-- The output events among some transactions, in order. -/
def outputsOf : List PortEvent → List Byte
  | [] => []
  | .output v :: rest => v :: outputsOf rest
  | .fetch _ _ :: rest => outputsOf rest
  | .dataRead _ _ :: rest => outputsOf rest
  | .dataWrite _ _ :: rest => outputsOf rest

end Sys2Proof.Machine
end

