-- ==== Sys2Proof/Machine/Run.lean ====
section
/-! DEFINITION. The reset input (spec/70_reset_and_hazards.md R240) and the end of a run (R249). -/

namespace Sys2Proof.Machine

/-- What the block does with its `rst` input: while it is 1 the block holds its reset state and does not step (R37,
R240); otherwise it steps. `rst` is an input and no state (log entry 16). -/
def cycle (rst : Bool) (s : State) : Host.Outcome State Fault Refusal :=
  if rst then .next s.resetBlock else step s

/-- What the host observes when a run has ended, and nothing else (R249). -/
structure Observation where
  out : List Byte
  exitStatus : Byte
  faultCause : BitVec 3
  faultPc : PcWord
  faultOpcode : Byte
  faultDetail : PcWord
  pc : PcWord
  regs : Vector Byte 8
  mem : Memory
  deriving DecidableEq, Repr

/-- The observation of a state. -/
def State.observation (s : State) : Observation :=
  { out := s.out
    exitStatus := s.exitStatus
    faultCause := s.faultCause
    faultPc := s.faultPc
    faultOpcode := s.faultOpcode
    faultDetail := s.faultDetail
    pc := s.pc
    regs := s.regs
    mem := s.mem }

/-- The final observation of the run from a state, if it ends within `fuel` steps. Running out of fuel is not an end:
a run that has not ended has no final observation (R249). -/
def observe (fuel : Nat) (s : State) : Option Observation :=
  match s.life with
  | .halted => some s.observation
  | .faulted => some s.observation
  | .running =>
    match fuel with
    | 0 => none
    | k + 1 =>
      match step s with
      | .next t => observe k t
      | .fault _ => none
      | .refused _ => none

end Sys2Proof.Machine
end

