-- ==== Sys2Proof/Safety.lean ====
section
/-! DEFINITION. The terms claims are stated in: the invariant of the state, what a fault record may hold, runs, and
frames. -/

namespace Sys2Proof.Machine

/-- The state invariant: the program counter is in range (R24), memory is canonical and holds existing cells only, and
the fault record is there exactly when the block is Faulted (R41) and names the instruction `pc` stands at (R34, R202). -/
structure State.Inv (s : State) : Prop where
  pc_le : s.pc.toNat ≤ 256
  mem_wf : s.mem.wf = true
  record_iff_faulted : s.fault.isSome = true ↔ s.life = .faulted
  record_here : ∀ r, s.fault = some r → r.fpc = s.pc ∧ r.fopc = s.opcodeAtPc

/-- What the table of R201 allows a fault record to hold, cause by cause. -/
def FaultRecord.FollowsTable (r : FaultRecord) : Prop :=
  match r.cause with
  | .fetchRange => r.detail = 256 ∧ (r.fpc = 256 → r.fopc = 0)
  | .unknownOpcode => r.detail = zext9 r.fopc ∧ ∀ o, opcodeByte o ≠ r.fopc
  | .badRegister => 7 < r.detail.toNat ∧ r.detail.toNat ≤ 255 ∧ ∃ o, opcodeByte o = r.fopc ∧ o ≠ .halt ∧ o ≠ .ret
  | .returnRange => r.detail = 256 ∧ r.fpc = 254 ∧ r.fopc = opcodeByte .call
  | .stackRange =>
    (r.detail = 0 ∧ (r.fopc = opcodeByte .push ∨ r.fopc = opcodeByte .call)) ∨
      (r.detail = 255 ∧ (r.fopc = opcodeByte .pop ∨ r.fopc = opcodeByte .ret))

/-- A run leads from one state to another: zero or more steps that each answer a next state (R80). -/
inductive Reaches (s : State) : State → Prop where
  | here : Reaches s s
  | step {t u : State} : Reaches s t → Sys2Proof.Machine.step t = .next u → Reaches s u

/-- The state is terminal: Halted or Faulted (R33, R81). -/
def State.Terminal (s : State) : Prop := s.life ≠ .running

/-- A run from this state never raises a fault. -/
def State.NeverFaults (s : State) : Prop := ∀ t, Reaches s t → t.life ≠ .faulted

/-! ### The instruction at the program counter -/

/-- The block is Running and these bytes stand at `pc`, all of them at existing addresses (R53, R76). -/
def State.InstructionAt (s : State) (bytes : List Byte) : Prop :=
  s.life = .running ∧ ∀ k b, bytes[k]? = some b → s.fetchByte (s.pc.toNat + k) = some b

/-- Wherever these bytes stand at `pc`, a step is the given instruction's meaning. -/
def RunsAs (bytes : List Byte) (i : Instr) : Prop := ∀ s : State, s.InstructionAt bytes → step s = exec i s

/-- The decoder faults of a two-byte instruction with one register operand, under its opcode byte (R76, R78). -/
def OneRegisterFaults (opcode : Byte) : Prop :=
  (∀ s : State, s.InstructionAt [opcode] → s.pc.toNat = 255 → step s = .next (s.raise .fetchRange 256)) ∧
  (∀ (s : State) (r : Byte), s.InstructionAt [opcode, r] → 7 < r.toNat →
    step s = .next (s.raise .badRegister r.toNat))

/-- The decoder faults of a three-byte instruction with two register operands, under its opcode byte (R76, R78). -/
def TwoRegisterFaults (opcode : Byte) : Prop :=
  (∀ s : State, s.InstructionAt [opcode] → 254 ≤ s.pc.toNat → step s = .next (s.raise .fetchRange 256)) ∧
  (∀ (s : State) (a b : Byte), s.InstructionAt [opcode, a, b] → 7 < a.toNat →
    step s = .next (s.raise .badRegister a.toNat)) ∧
  (∀ (s : State) (a b : Byte), s.InstructionAt [opcode, a, b] → a.toNat ≤ 7 → 7 < b.toNat →
    step s = .next (s.raise .badRegister b.toNat))

/-! ### Frames: what two states agree on -/

/-- Every cell of memory reads the same. -/
def SameCells (s t : State) : Prop := ∀ a, t.readByte a = s.readByte a

/-- Every cell but one reads the same. -/
def SameCellsBut (a : Byte) (s t : State) : Prop := ∀ b, b ≠ a → t.readByte b = s.readByte b

/-- Every register outside a list holds the same value. -/
def SameRegsBut (rs : List Reg) (s t : State) : Prop := ∀ r, r ∉ rs → t.reg r = s.reg r

/-- The lifecycle state and the fault record are the same. -/
def SameStatus (s t : State) : Prop := t.life = s.life ∧ t.fault = s.fault

end Sys2Proof.Machine
end

