-- ==== Sys2Proof/Certificates/Slice0/Obligations.lean ====
section
/-! DEFINITION. The statements about the model that the provers settle. Each docstring names the rule of spec/ the
statement formalises, or the rules it is derived from. A rule the spec marks as its own decision is followed as the
rule it is; the docstring names the decision D<n> of spec/92_eei_decisions.md. -/

open Sys2Proof Sys2Proof.Machine

/-! ### The instructions, one by one

Each statement has the instruction's result and frame in every state (its completion), the bytes it is encoded by, and
every fault its rule lists. -/

/-- R100 (widths: D1). ADD sums modulo 256 into its first register and changes nothing else but `pc`; it faults only
on its own bytes and operands. Both operands may be the same register, and either may be R7. -/
def Obligations.AddSumsModulo256 : Prop :=
  (∀ (a b : Reg) (s : State), ∃ t, exec (.add (byteOfReg a) (byteOfReg b)) s = .next t ∧
    (t.reg a).toNat = ((s.reg a).toNat + (s.reg b).toNat) % 256 ∧ SameRegsBut [a] s t ∧ t.pc = s.pc + 3 ∧
    t.flag = s.flag ∧ t.out = s.out ∧ SameStatus s t ∧ SameCells s t) ∧
  (∀ a b : Reg, RunsAs [0xA0, byteOfReg a, byteOfReg b] (.add (byteOfReg a) (byteOfReg b))) ∧
  TwoRegisterFaults 0xA0

/-- R102 (widths: D1, D11). MUL keeps the low 8 bits of the product in its first register and changes nothing else but
`pc`; it faults only on its own bytes and operands. -/
def Obligations.MulKeepsLowByteOfProduct : Prop :=
  (∀ (a b : Reg) (s : State), ∃ t, exec (.mul (byteOfReg a) (byteOfReg b)) s = .next t ∧
    (t.reg a).toNat = ((s.reg a).toNat * (s.reg b).toNat) % 256 ∧ SameRegsBut [a] s t ∧ t.pc = s.pc + 3 ∧
    t.flag = s.flag ∧ t.out = s.out ∧ SameStatus s t ∧ SameCells s t) ∧
  (∀ a b : Reg, RunsAs [0xA2, byteOfReg a, byteOfReg b] (.mul (byteOfReg a) (byteOfReg b))) ∧
  TwoRegisterFaults 0xA2

/-- R104 (signedness: D10). COMPARE sets the flag to exactly one of EQ, LT and GT by unsigned order, whatever it was,
and changes nothing else but `pc`. -/
def Obligations.CompareSetsFlagByUnsignedOrder : Prop :=
  (∀ (a b : Reg) (s : State), ∃ t, exec (.compare (byteOfReg a) (byteOfReg b)) s = .next t ∧
    (t.flag = .eq ↔ (s.reg a).toNat = (s.reg b).toNat) ∧ (t.flag = .lt ↔ (s.reg a).toNat < (s.reg b).toNat) ∧
    (t.flag = .gt ↔ (s.reg b).toNat < (s.reg a).toNat) ∧ SameRegsBut [] s t ∧ t.pc = s.pc + 3 ∧
    t.out = s.out ∧ SameStatus s t ∧ SameCells s t) ∧
  (∀ a b : Reg, RunsAs [0xA7, byteOfReg a, byteOfReg b] (.compare (byteOfReg a) (byteOfReg b))) ∧
  TwoRegisterFaults 0xA7

/-- R120. HALT moves `pc` past itself and stops the block; nothing else changes, and wherever it stands, at address
255 too, a step runs it without a fault. After it the block has no step and its exit status is 0. -/
def Obligations.HaltStopsTheBlock : Prop :=
  (∀ s : State, ∃ t, exec .halt s = .next t ∧ t.life = .halted ∧ t.pc = s.pc + 1 ∧ SameRegsBut [] s t ∧
    t.flag = s.flag ∧ t.out = s.out ∧ t.fault = s.fault ∧ SameCells s t ∧ t.exitStatus = 0 ∧
    ∀ u, step t ≠ .next u) ∧
  RunsAs [0x01] .halt

/-- R122. LOAD_IMMEDIATE writes its immediate, any of the 256 values and never checked, and changes nothing else but
`pc`; it faults only on its own bytes and its register operand. -/
def Obligations.LoadImmediateWritesConstant : Prop :=
  (∀ (r : Reg) (v : Byte) (s : State), ∃ t, exec (.loadImmediate (byteOfReg r) v) s = .next t ∧
    t.reg r = v ∧ SameRegsBut [r] s t ∧ t.pc = s.pc + 3 ∧ t.flag = s.flag ∧ t.out = s.out ∧ SameStatus s t ∧
    SameCells s t) ∧
  (∀ (r : Reg) (v : Byte), RunsAs [0x82, byteOfReg r, v] (.loadImmediate (byteOfReg r) v)) ∧
  (∀ s : State, s.InstructionAt [0x82] → 254 ≤ s.pc.toNat → step s = .next (s.raise .fetchRange 256)) ∧
  (∀ (s : State) (r v : Byte), s.InstructionAt [0x82, r, v] → 7 < r.toNat →
    step s = .next (s.raise .badRegister r.toNat))

/-- R124. PRINT_REG appends the register's value to the output list and changes nothing else but `pc`; a faulting one
emits nothing. -/
def Obligations.PrintRegAppendsToOutput : Prop :=
  (∀ (r : Reg) (s : State), ∃ t, exec (.printReg (byteOfReg r)) s = .next t ∧ t.out = s.out ++ [s.reg r] ∧
    SameRegsBut [] s t ∧ t.pc = s.pc + 2 ∧ t.flag = s.flag ∧ SameStatus s t ∧ SameCells s t) ∧
  (∀ r : Reg, RunsAs [0x47, byteOfReg r] (.printReg (byteOfReg r))) ∧
  OneRegisterFaults 0x47 ∧
  (∀ s t : State, s.InstructionAt [0x47] → step s = .next t → t.life = .faulted → t.out = s.out)

/-- R141 (range: D6; order for R7: D12). PUSH stores at the decremented stack pointer, reading its register after the
decrement, so PUSH R7 stores the decremented value; with SP = 0 it is StackRange(0) and nothing is stored. -/
def Obligations.PushStoresBelowStackPointer : Prop :=
  (∀ (r : Reg) (s : State), s.sp.toNat ≠ 0 → ∃ t, exec (.push (byteOfReg r)) s = .next t ∧
    t.sp = s.pushAddress ∧ s.pushAddress.toNat + 1 = s.sp.toNat ∧ SameRegsBut [Config.spIndex] s t ∧
    t.readByte s.pushAddress = (if r = Config.spIndex then s.pushAddress else s.reg r) ∧
    SameCellsBut s.pushAddress s t ∧ t.pc = s.pc + 2 ∧ t.flag = s.flag ∧ t.out = s.out ∧ SameStatus s t) ∧
  (∀ (r : Reg) (s : State), s.sp.toNat = 0 → exec (.push (byteOfReg r)) s = .next (s.raise .stackRange 0)) ∧
  (∀ r : Reg, RunsAs [0x45, byteOfReg r] (.push (byteOfReg r))) ∧
  OneRegisterFaults 0x45

/-- R143 (range: D6; order for R7: D12). POP reads the cell SP points to into its register and then moves SP up from
what the register file then holds, so POP R7 leaves the popped value plus 1; where SP would move above 255 it is
StackRange(255). It stores nothing: the popped cell keeps its value. -/
def Obligations.PopReadsThenMovesStackPointer : Prop :=
  (∀ (r : Reg) (s : State), r ≠ Config.spIndex → s.sp.toNat ≠ 255 → ∃ t, exec (.pop (byteOfReg r)) s = .next t ∧
    t.reg r = s.readByte s.sp ∧ t.sp.toNat = s.sp.toNat + 1 ∧ SameRegsBut [r, Config.spIndex] s t ∧
    t.pc = s.pc + 2 ∧ t.flag = s.flag ∧ t.out = s.out ∧ SameStatus s t ∧ SameCells s t) ∧
  (∀ s : State, (s.readByte s.sp).toNat ≠ 255 → ∃ t, exec (.pop (byteOfReg Config.spIndex)) s = .next t ∧
    t.sp.toNat = (s.readByte s.sp).toNat + 1 ∧ SameRegsBut [Config.spIndex] s t ∧ t.pc = s.pc + 2 ∧
    t.flag = s.flag ∧ t.out = s.out ∧ SameStatus s t ∧ SameCells s t) ∧
  (∀ (r : Reg) (s : State), r ≠ Config.spIndex → s.sp.toNat = 255 →
    exec (.pop (byteOfReg r)) s = .next (s.raise .stackRange 255)) ∧
  (∀ s : State, (s.readByte s.sp).toNat = 255 →
    exec (.pop (byteOfReg Config.spIndex)) s = .next (s.raise .stackRange 255)) ∧
  (∀ r : Reg, RunsAs [0x46, byteOfReg r] (.pop (byteOfReg r))) ∧
  OneRegisterFaults 0x46

/-- R161 (ranges: D6, D7; order for R7: D12). CALL stores the address after itself at the decremented stack pointer and
jumps to its register, read after the decrement; a return address above 255 is ReturnRange before SP = 0 is
StackRange(0), and both come after the operand check. -/
def Obligations.CallPushesReturnAddressAndJumps : Prop :=
  (∀ (r : Reg) (s : State), s.pc.toNat + 2 ≤ 255 → s.sp.toNat ≠ 0 → ∃ t, exec (.call (byteOfReg r)) s = .next t ∧
    t.sp = s.pushAddress ∧ s.pushAddress.toNat + 1 = s.sp.toNat ∧ SameRegsBut [Config.spIndex] s t ∧
    (t.readByte s.pushAddress).toNat = s.pc.toNat + 2 ∧ SameCellsBut s.pushAddress s t ∧
    t.pc = zext9 (if r = Config.spIndex then s.pushAddress else s.reg r) ∧ t.flag = s.flag ∧ t.out = s.out ∧
    SameStatus s t) ∧
  (∀ (r : Reg) (s : State), 255 < s.pc.toNat + 2 →
    exec (.call (byteOfReg r)) s = .next (s.raise .returnRange (s.pc.toNat + 2))) ∧
  (∀ (r : Reg) (s : State), s.pc.toNat + 2 ≤ 255 → s.sp.toNat = 0 →
    exec (.call (byteOfReg r)) s = .next (s.raise .stackRange 0)) ∧
  (∀ r : Reg, RunsAs [0x50, byteOfReg r] (.call (byteOfReg r))) ∧
  OneRegisterFaults 0x50

/-- R163 (range: D6; no check of the byte's origin: D26). RETURN jumps to the byte SP points to and moves SP up; with
SP = 255 it is StackRange(255). -/
def Obligations.ReturnJumpsToTopOfStack : Prop :=
  (∀ s : State, s.sp.toNat ≠ 255 → ∃ t, exec .ret s = .next t ∧ t.pc = zext9 (s.readByte s.sp) ∧
    t.sp.toNat = s.sp.toNat + 1 ∧ SameRegsBut [Config.spIndex] s t ∧ t.flag = s.flag ∧ t.out = s.out ∧
    SameStatus s t ∧ SameCells s t) ∧
  (∀ s : State, s.sp.toNat = 255 → exec .ret s = .next (s.raise .stackRange 255)) ∧
  RunsAs [0x11] .ret

/-- R165. JUMP sets `pc` to its register's value and changes nothing else. -/
def Obligations.JumpGoesToRegister : Prop :=
  (∀ (r : Reg) (s : State), ∃ t, exec (.jump (byteOfReg r)) s = .next t ∧ t.pc = zext9 (s.reg r) ∧
    SameRegsBut [] s t ∧ t.flag = s.flag ∧ t.out = s.out ∧ SameStatus s t ∧ SameCells s t) ∧
  (∀ r : Reg, RunsAs [0x54, byteOfReg r] (.jump (byteOfReg r))) ∧
  OneRegisterFaults 0x54

/-- R167 (the Unset flag: D8; the operand check on a jump not taken: D4). JUMP_IF_EQUAL jumps exactly when the flag is
EQ and changes nothing but `pc`. -/
def Obligations.JumpIfEqualTestsForEqual : Prop :=
  (∀ (r : Reg) (s : State), ∃ t, exec (.jumpIfEqual (byteOfReg r)) s = .next t ∧
    (s.flag = .eq → t.pc = zext9 (s.reg r)) ∧ (s.flag ≠ .eq → t.pc = s.pc + 2) ∧
    SameRegsBut [] s t ∧ t.flag = s.flag ∧ t.out = s.out ∧ SameStatus s t ∧ SameCells s t) ∧
  (∀ r : Reg, RunsAs [0x55, byteOfReg r] (.jumpIfEqual (byteOfReg r))) ∧
  OneRegisterFaults 0x55

/-- R169 (the Unset flag: D8; the operand check on a jump not taken: D4). JUMP_IF_NOT_EQUAL jumps exactly when the flag
is Unset, LT or GT and changes nothing but `pc`. -/
def Obligations.JumpIfNotEqualTakesEveryOtherFlag : Prop :=
  (∀ (r : Reg) (s : State), ∃ t, exec (.jumpIfNotEqual (byteOfReg r)) s = .next t ∧
    (s.flag = .unset ∨ s.flag = .lt ∨ s.flag = .gt → t.pc = zext9 (s.reg r)) ∧ (s.flag = .eq → t.pc = s.pc + 2) ∧
    SameRegsBut [] s t ∧ t.flag = s.flag ∧ t.out = s.out ∧ SameStatus s t ∧ SameCells s t) ∧
  (∀ r : Reg, RunsAs [0x56, byteOfReg r] (.jumpIfNotEqual (byteOfReg r))) ∧
  OneRegisterFaults 0x56

/-! ### Encoding and decoding -/

/-- Derived from the table of R72 (byte values: D2): one word of every instruction, written out from the table, decodes
to the instruction it stands for. -/
def Obligations.TableWordsDecode : Prop :=
  decode [0b00000001] = .ok .halt [] ∧
  decode [0b10000010, 0, 8] = .ok (.loadImmediate 0 8) [] ∧
  decode [0b01000111, 5] = .ok (.printReg 5) [] ∧
  decode [0b10100000, 1, 2] = .ok (.add 1 2) [] ∧
  decode [0b10100010, 3, 4] = .ok (.mul 3 4) [] ∧
  decode [0b01000101, 6] = .ok (.push 6) [] ∧
  decode [0b01000110, 7] = .ok (.pop 7) [] ∧
  decode [0b01010000, 1] = .ok (.call 1) [] ∧
  decode [0b00010001] = .ok .ret [] ∧
  decode [0b10100111, 7, 0] = .ok (.compare 7 0) [] ∧
  decode [0b01010100, 2] = .ok (.jump 2) [] ∧
  decode [0b01010101, 3] = .ok (.jumpIfEqual 3) [] ∧
  decode [0b01010110, 4] = .ok (.jumpIfNotEqual 4) []

/-- Derived from R71, R72, R78 and D2: under every injective opcode map, the bytes of a well-formed instruction decode
to it, with every operand at every value, and the bytes after it are untouched. -/
def Obligations.DecodeEncodeRoundTrip : Prop :=
  ∀ (m : OpcodeMap), m.Injective → ∀ (i : Instr), i.wellFormed = true → ∀ rest : List Byte,
    decodeWith m (encodeWith m i ++ rest) = .ok i rest

/-- Derived from R72, R77 and R78: what the decoder accepts is the encoding of a well-formed instruction and nothing
else, under every opcode map; no byte is dropped and no reserved byte falls through to a neighbour. -/
def Obligations.DecoderAcceptsOnlyEncodings : Prop :=
  ∀ (m : OpcodeMap) (bytes rest : List Byte) (i : Instr), decodeWith m bytes = .ok i rest →
    bytes = encodeWith m i ++ rest ∧ i.wellFormed = true

/-- R75 (D3): decoding depends on the instruction's own bytes alone, and the decoder reads exactly those, in address
order. -/
def Obligations.DecoderReadsExactlyTheInstruction : Prop :=
  (∀ (i : Instr) (rest rest' : List Byte), decode (encode i ++ rest) = .ok i rest →
    decode (encode i ++ rest') = .ok i rest') ∧
  (∀ (s : State) (i : Instr), s.InstructionAt (encode i) →
    s.fetchEvents = (List.range i.length).map
      (fun k => .fetch (BitVec.ofNat 8 (s.pc.toNat + k)) (s.mem.read (s.pc.toNat + k))))

/-- R73 (D2): the opcode bytes have the structure AABCDDDD, the low bits tell the operations of a group apart, and the
structure alone does not make an opcode (0x83). -/
def Obligations.OpcodeBytesHaveTheirFields : Prop :=
  (∀ o : Op, (opcodeByte o).toNat / 64 + 1 = o.length) ∧
  (∀ o : Op, (opcodeByte o).getLsbD 5 = true ↔ o = .add ∨ o = .mul ∨ o = .compare) ∧
  (∀ o : Op, (opcodeByte o).getLsbD 4 = true ↔
    o = .call ∨ o = .ret ∨ o = .jump ∨ o = .jumpIfEqual ∨ o = .jumpIfNotEqual) ∧
  (∀ o o' : Op, (opcodeByte o).toNat / 16 = (opcodeByte o').toNat / 16 →
    (opcodeByte o).toNat % 16 = (opcodeByte o').toNat % 16 → o = o') ∧
  opOfByte opcodeByte 0x83 = none

/-- R76 (D5): a byte of the instruction above address 255 is FetchRange with its address, which is 256 wherever
`pc` is at most 256. -/
def Obligations.FetchAbove255Faults : Prop :=
  (∀ s : State, s.life = .running → 255 < s.pc.toNat → step s = .next (s.raise .fetchRange s.pc.toNat)) ∧
  (∀ (s : State) (o : Op), s.InstructionAt [opcodeByte o] → 256 < s.pc.toNat + o.length →
    step s = .next (s.raise .fetchRange 256))

/-- R77 (D25): an opcode byte outside the map is UnknownOpcode with the byte, whatever follows it; 243 byte values are
illegal, 0x00 among them. -/
def Obligations.IllegalOpcodesFault : Prop :=
  (∀ (s : State) (b : Byte), s.InstructionAt [b] → (∀ o, opcodeByte o ≠ b) →
    step s = .next (s.raise .unknownOpcode b.toNat)) ∧
  ((List.range 256).filter (fun n => (opOfByte opcodeByte (BitVec.ofNat 8 n)).isNone)).length = 243 ∧
  opOfByte opcodeByte 0x00 = none

/-- R78 (D4): the first register operand above 7 is BadRegister with its value, before the instruction executes; an
immediate is never checked. -/
def Obligations.BadRegisterIsCheckedFirst : Prop :=
  (∀ (s : State) (i : Instr) (before after : List Byte) (r : Byte), i.regOperands = before ++ r :: after →
    (∀ q ∈ before, q.toNat ≤ 7) → 7 < r.toNat → s.InstructionAt (encode i) →
    step s = .next (s.raise .badRegister r.toNat)) ∧
  (∀ (r : Reg) (v : Byte), decode [0x82, byteOfReg r, v] = .ok (.loadImmediate (byteOfReg r) v) [])

/-- Derived from R78 (the model's choice, log entry 7): an instruction's meaning, asked about a term that is not
well-formed, raises the same BadRegister the decoder raises, before it does or checks anything else. -/
def Obligations.MeaningsRaiseBadRegisterToo : Prop :=
  ∀ (s : State) (i : Instr) (before after : List Byte) (r : Byte), i.regOperands = before ++ r :: after →
    (∀ q ∈ before, q.toNat ≤ 7) → 7 < r.toNat → exec i s = .next (s.raise .badRegister r.toNat)

/-! ### The execution cycle -/

/-- Derived from R80: where the bytes at `pc` are those of a well-formed instruction, a step of the running block is
that instruction's meaning and nothing around it. -/
def Obligations.StepRunsTheInstructionAtPc : Prop :=
  ∀ (s : State) (i : Instr), i.wellFormed = true → s.InstructionAt (encode i) → step s = exec i s

/-- Derived from R24 and R76: `pc` plus the length of the instruction at `pc` is exact and at most 256, so no advance
of the program counter wraps. -/
def Obligations.AdvancePastFetchedInstructionIsExact : Prop :=
  ∀ (s : State) (i : Instr), s.InstructionAt (encode i) →
    (s.advance i.length).pc.toNat = s.pc.toNat + i.length ∧ s.pc.toNat + i.length ≤ 256

/-- R81 (D22), and that every other state has its step: there is a next state exactly when the block is Running. -/
def Obligations.OnlyTerminalStatesHaveNoStep : Prop :=
  ∀ s : State, (∃ t, step s = .next t) ↔ s.life = .running

/-- The model's choice (log entry 5) for R81: in a terminal state the step stops with a fault named after the state; no
step is ever refused. -/
def Obligations.TerminalStatesStopByName : Prop :=
  ∀ s : State, (s.life = .halted → step s = .fault .blockHalted) ∧
    (s.life = .faulted → step s = .fault .blockFaulted) ∧ ∀ r, step s ≠ .refused r

/-! ### Faults -/

/-- R202 (D13, D14): a step into Faulted changes the lifecycle state and the fault record and nothing else, records
cause, `pc` and opcode byte, and makes the exit status 1. -/
def Obligations.FaultEntryChangesOnlyStatusAndRecord : Prop :=
  ∀ s t : State, step s = .next t → t.life = .faulted →
    t.regs = s.regs ∧ t.mem = s.mem ∧ t.flag = s.flag ∧ t.out = s.out ∧ t.pc = s.pc ∧ t.exitStatus = 1 ∧
    ∃ (c : Cause) (d : Nat), t = s.raise c d ∧ t.faultCause = c.code ∧ t.faultPc = s.pc ∧
      t.faultDetail = BitVec.ofNat 9 d ∧
      t.faultOpcode = (if s.pc.toNat ≤ 255 then s.mem.read s.pc.toNat else 0)

/-- Derived from the table of R201 (D4 to D7, D14): from `pc` at most 256, the record a step's fault leaves holds, for
its cause, the detail and the opcode byte the table allows. -/
def Obligations.FaultRecordFollowsCauseTable : Prop :=
  ∀ s t : State, s.pc.toNat ≤ 256 → step s = .next t → t.life = .faulted →
    ∃ r, t.fault = some r ∧ r.FollowsTable

/-- Derived from R204 for CALL, which can fail every check: the fault is the first failing check's, in the rule's
order. -/
def Obligations.CallReportsItsFirstFailingCheck : Prop :=
  ∀ (s : State) (r : Byte), s.InstructionAt [0x50, r] →
    (7 < r.toNat → step s = .next (s.raise .badRegister r.toNat)) ∧
    (r.toNat ≤ 7 → s.pc.toNat = 254 → step s = .next (s.raise .returnRange 256)) ∧
    (r.toNat ≤ 7 → s.pc.toNat ≠ 254 → s.sp.toNat = 0 → step s = .next (s.raise .stackRange 0)) ∧
    (r.toNat ≤ 7 → s.pc.toNat ≠ 254 → s.sp.toNat ≠ 0 → ∃ t, step s = .next t ∧ t.life = .running)

/-- R35 (D14): the four fault ports read 0 at reset and in every state that is not Faulted, the cause port reads 1 to 5
in a Faulted one, a step that does not enter Faulted leaves all four as they were, and one that does gives the detail
port what the table of R201 says for its cause. -/
def Obligations.FaultPortsReadZeroUnlessFaulted : Prop :=
  (∀ s : State, s.Inv → s.life ≠ .faulted →
    s.faultCause = 0 ∧ s.faultPc = 0 ∧ s.faultOpcode = 0 ∧ s.faultDetail = 0) ∧
  (∀ s : State, s.Inv → s.life = .faulted → 1 ≤ s.faultCause.toNat ∧ s.faultCause.toNat ≤ 5 ∧ s.faultPc = s.pc ∧
    s.faultOpcode = s.opcodeAtPc) ∧
  (∀ s t : State, step s = .next t → t.life ≠ .faulted → t.fault = s.fault) ∧
  (∀ s t : State, s.Inv → step s = .next t → t.life = .faulted → ∃ r, t.fault = some r ∧ r.FollowsTable ∧
    t.faultCause = r.cause.code ∧ t.faultDetail = r.detail) ∧
  (State.reset.faultCause = 0 ∧ State.reset.faultPc = 0 ∧ State.reset.faultOpcode = 0 ∧ State.reset.faultDetail = 0)

/-- R38 (D14): the exit status by lifecycle state, and that a run's last step decides it. -/
def Obligations.ExitStatusTellsHowTheRunEnded : Prop :=
  (∀ s : State, s.exitStatus = if s.life = .faulted then 1 else 0) ∧
  (∀ s t : State, step s = .next t → (t.exitStatus = 1 ↔ t.life = .faulted))

/-! ### Whole-machine rules -/

/-- R30: only COMPARE writes the flag, whatever it held, and only the two conditional jumps read it: for every other
instruction a different flag before changes nothing but the flag after. -/
def Obligations.OnlyCompareWritesAndOnlyJumpsReadFlag : Prop :=
  (∀ (i : Instr) (s t : State), exec i s = .next t → t.flag = s.flag ∨ i.op = .compare) ∧
  (∀ (a b : Reg) (s : State) (f : Flag), exec (.compare (byteOfReg a) (byteOfReg b)) (s.setFlag f) =
    exec (.compare (byteOfReg a) (byteOfReg b)) s) ∧
  (∀ (i : Instr) (s t : State) (f : Flag), i.op ≠ .compare → i.op ≠ .jumpIfEqual → i.op ≠ .jumpIfNotEqual →
    exec i s = .next t → exec i (s.setFlag f) = .next (t.setFlag f))

/-- Derived from the table of R22: a register an instruction changes is one the table lists for it. -/
def Obligations.RegistersChangeOnlyAsListed : Prop :=
  ∀ (i : Instr) (s t : State) (r : Reg), exec i s = .next t → t.reg r ≠ s.reg r →
    (∃ v, i = .loadImmediate (byteOfReg r) v) ∨ (∃ b, i = .add (byteOfReg r) b) ∨ (∃ b, i = .mul (byteOfReg r) b) ∨
    i = .pop (byteOfReg r) ∨
    (r = Config.spIndex ∧ (i.op = .push ∨ i.op = .pop ∨ i.op = .call ∨ i.op = .ret))

/-- Derived from R51 and R57: only PUSH and CALL change memory, each in the one cell below the stack pointer; every
other instruction leaves all 256 cells as they were. -/
def Obligations.OnlyPushAndCallStore : Prop :=
  ∀ (i : Instr) (s t : State), exec i s = .next t →
    ((i.op = .push ∨ i.op = .call) → SameCellsBut s.pushAddress s t) ∧
    (i.op ≠ .push → i.op ≠ .call → SameCells s t)

/-- Derived from R36 and R125: the output list only grows, by at most one value a step, and only PRINT_REG appends to
it. -/
def Obligations.OnlyPrintRegEmits : Prop :=
  ∀ s t : State, step s = .next t →
    t.out = s.out ∨ ∃ r : Reg, s.InstructionAt [0x47, byteOfReg r] ∧ t.out = s.out ++ [s.reg r]

/-- Derived from the table of R25: where the program counter is after a step that completes, as an exact number,
instruction by instruction. -/
def Obligations.StepMovesPcAsTheTableSays : Prop :=
  ∀ (s t : State) (i : Instr), i.wellFormed = true → s.InstructionAt (encode i) → step s = .next t →
    t.life ≠ .faulted →
    match i with
    | .halt => t.pc.toNat = s.pc.toNat + 1
    | .loadImmediate _ _ => t.pc.toNat = s.pc.toNat + 3
    | .add _ _ => t.pc.toNat = s.pc.toNat + 3
    | .mul _ _ => t.pc.toNat = s.pc.toNat + 3
    | .compare _ _ => t.pc.toNat = s.pc.toNat + 3
    | .printReg _ => t.pc.toNat = s.pc.toNat + 2
    | .push _ => t.pc.toNat = s.pc.toNat + 2
    | .pop _ => t.pc.toNat = s.pc.toNat + 2
    | .call target => ∀ r, byteOfReg r = target → t.pc = zext9 (t.reg r)
    | .jump target => ∀ r, byteOfReg r = target → t.pc = zext9 (s.reg r)
    | .ret => t.pc = zext9 (s.readByte s.sp)
    | .jumpIfEqual target =>
      if s.flag = .eq then ∀ r, byteOfReg r = target → t.pc = zext9 (s.reg r) else t.pc.toNat = s.pc.toNat + 2
    | .jumpIfNotEqual target =>
      if s.flag ≠ .eq then ∀ r, byteOfReg r = target → t.pc = zext9 (s.reg r) else t.pc.toNat = s.pc.toNat + 2

/-- Derived from R24, R34, R41, R50 and R202: every step keeps the state invariant, from any state that meets it. -/
def Obligations.StepKeepsTheInvariant : Prop :=
  ∀ s t : State, s.Inv → step s = .next t → t.Inv

/-- Derived from R241: the state right after reset meets the invariant. -/
def Obligations.ResetMeetsTheInvariant : Prop := State.reset.Inv

/-- Derived from R241, R243 and R244: whatever program is booted, every state of its run meets the invariant. -/
def Obligations.BootedRunsMeetTheInvariant : Prop :=
  ∀ (program : List Byte) (s t : State), boot program = .next s → Reaches s t → t.Inv

/-! ### The memory port and the output port -/

/-- Derived from R37 and R51: a step makes at most three instruction-byte reads, one data read, one data write and one
output event; its writes and events are all that happens to memory and to the output list. -/
def Obligations.PortTransactionsAreBoundedAndComplete : Prop :=
  (∀ s : State, (s.portEvents.filter PortEvent.isFetch).length ≤ 3 ∧
    (s.portEvents.filter PortEvent.isDataRead).length ≤ 1 ∧
    (s.portEvents.filter PortEvent.isDataWrite).length ≤ 1 ∧
    (s.portEvents.filter PortEvent.isOutput).length ≤ 1) ∧
  (∀ s t : State, step s = .next t →
    t.mem = s.mem.replay s.portEvents ∧ t.out = s.out ++ outputsOf s.portEvents)

/-- Derived from R37, R51 and R75: a step depends on no cell that is not among its reads. If another memory agrees on
those, the step against it does the same to everything else and makes the same writes. -/
def Obligations.UnreadCellsDoNotMatter : Prop :=
  ∀ (s t : State) (m : Memory), step s = .next t →
    (∀ e ∈ s.portEvents, ∀ a, e.readAddress = some a → m.read a.toNat = s.mem.read a.toNat) →
    step { s with mem := m } = .next { t with mem := m.replay s.portEvents }

/-- Derived from R62 (D17): the byte a PUSH stores over the next instruction's opcode is the opcode the next step
fetches. -/
def Obligations.StoreIsSeenByTheNextFetch : Prop :=
  ∀ (s : State) (r : Reg), s.InstructionAt [0x45, byteOfReg r] → s.sp.toNat = s.pc.toNat + 3 →
    ∃ t, step s = .next t ∧
      t.fetchBytes.head? = some (if r = Config.spIndex then s.pushAddress else s.reg r)

/-! ### Properties across instructions -/

/-- Derived (R101, R103, R106): ADD and MUL are commutative on operand values, associative modulo 256, with 0 and 1 as
identities and 0 annihilating MUL. -/
def Obligations.AddAndMulAreCommutativeAndAssociative : Prop :=
  (∀ (a b : Reg) (s t u : State), exec (.add (byteOfReg a) (byteOfReg b)) s = .next t →
    exec (.add (byteOfReg b) (byteOfReg a)) s = .next u → t.reg a = u.reg b) ∧
  (∀ (a b : Reg) (s t u : State), exec (.mul (byteOfReg a) (byteOfReg b)) s = .next t →
    exec (.mul (byteOfReg b) (byteOfReg a)) s = .next u → t.reg a = u.reg b) ∧
  (∀ x y z : Byte, aluAdd (aluAdd x y) z = aluAdd x (aluAdd y z) ∧ aluMul (aluMul x y) z = aluMul x (aluMul y z)) ∧
  (∀ x : Byte, aluAdd x 0 = x ∧ aluMul x 1 = x ∧ aluMul x 0 = 0)

/-- Derived (R144, C9): a PUSH that does not fault and a POP of the same register leave every register as it was, for
R7 too; the pushed cell keeps the value and `pc` has advanced by 4. -/
def Obligations.PushThenPopRoundTrips : Prop :=
  ∀ (r : Reg) (s : State), s.sp.toNat ≠ 0 → ∃ t u, exec (.push (byteOfReg r)) s = .next t ∧
    exec (.pop (byteOfReg r)) t = .next u ∧ SameRegsBut [] s u ∧ u.pc = s.pc + 4 ∧
    u.readByte s.pushAddress = (if r = Config.spIndex then s.pushAddress else s.reg r)

/-- Derived (R162): a RETURN reached with SP and the cell it points to as a CALL left them goes to the address after
the CALL and restores SP. -/
def Obligations.CallThenReturnResumesAfterTheCall : Prop :=
  ∀ (r : Reg) (s : State), s.pc.toNat + 2 ≤ 255 → s.sp.toNat ≠ 0 →
    ∃ t, exec (.call (byteOfReg r)) s = .next t ∧
      ∀ u : State, u.sp = t.sp → u.readByte u.sp = t.readByte t.sp →
        ∃ w, exec .ret u = .next w ∧ w.pc.toNat = s.pc.toNat + 2 ∧ w.sp = s.sp

/-- Derived (R170, R166): after a COMPARE, in any later state with the flag it left, JUMP_IF_EQUAL jumps if the operands
were equal and JUMP_IF_NOT_EQUAL if they were not, and otherwise each goes on. -/
def Obligations.CompareDecidesTheConditionalJumps : Prop :=
  ∀ (a b : Reg) (s : State), ∃ t, exec (.compare (byteOfReg a) (byteOfReg b)) s = .next t ∧
    ∀ (u : State) (r : Reg), u.flag = t.flag →
      (s.reg a = s.reg b → exec (.jumpIfEqual (byteOfReg r)) u = .next (u.jumpTo (u.reg r)) ∧
        exec (.jumpIfNotEqual (byteOfReg r)) u = .next (u.advance 2)) ∧
      (s.reg a ≠ s.reg b → exec (.jumpIfEqual (byteOfReg r)) u = .next (u.advance 2) ∧
        exec (.jumpIfNotEqual (byteOfReg r)) u = .next (u.jumpTo (u.reg r)))

/-- Derived from R160 and R249: a JUMP to its own address never ends, and nothing observes an end of it. -/
def Obligations.JumpToItselfNeverEnds : Prop :=
  ∀ (s : State) (r : Reg), s.InstructionAt [0x54, byteOfReg r] → zext9 (s.reg r) = s.pc →
    ∀ fuel : Nat, observe fuel s = none

/-! ### Reset, boot and the end of a run -/

/-- R241 (D8, D9, D14, D23): the reset value of every piece of block state, after power-up and after a reset of any
state. -/
def Obligations.ResetGivesEveryPieceItsValue : Prop :=
  ∀ s : State, ∀ t ∈ [State.reset, s.resetBlock],
    (∀ r : Reg, r ≠ Config.spIndex → t.reg r = 0x00) ∧ t.sp = 0xF4 ∧ t.pc = 0 ∧ t.flag = .unset ∧
    t.flag.toByte = 0x00 ∧ t.life = .running ∧ t.faultCause = 0 ∧ t.faultPc = 0 ∧ t.faultOpcode = 0 ∧
    t.faultDetail = 0 ∧ t.out = [] ∧ t.exitStatus = 0

/-- Derived from R240 to R242 (D15, D22): while `rst` is 1 the block holds exactly its reset state over the memory it
had, and does not step; when it is 0 the block steps, from a reset state it fetches at address 0, and no terminal state
is left without `rst`. That `rst` is an argument of `cycle` and that the life port reads Running while it is 1 are the
model's choice (log entry 16). -/
def Obligations.ResetIsTheOnlyWayOutOfTerminalStates : Prop :=
  (∀ s : State, cycle true s = .next s.resetBlock ∧ s.resetBlock = { State.reset with mem := s.mem } ∧
    cycle true s.resetBlock = .next s.resetBlock) ∧
  (∀ s : State, s.resetBlock.life = .running ∧ s.resetBlock.pc = 0 ∧ SameCells s s.resetBlock ∧
    s.resetBlock.fetchByte s.resetBlock.pc.toNat = some (s.readByte 0)) ∧
  (∀ s t : State, s.Terminal → cycle false s ≠ .next t) ∧
  (∀ s : State, cycle false s = step s)

/-- R243: after boot, cells 0 to n - 1 hold the program in order and every other cell holds 0x00; the block is in its
reset state. Every program of at most 256 bytes boots. -/
def Obligations.BootLoadsTheProgramFromZero : Prop :=
  ∀ program : List Byte, program.length ≤ 256 → ∃ s, boot program = .next s ∧
    (∀ a : Byte, s.readByte a = program.getD a.toNat 0x00) ∧ s.resetBlock = s ∧ s.mem.wf = true

/-- Derived from R85, R245 and R246 (D19). Lines: a `#` comment changes nothing; a blank line is skipped; a radix-2
literal, white space around it or not, is its value's byte up to 255 and a load error above; every stripped line with any
other character is a load error. Files: the text of lines splits into those lines; a file with a malformed line is
refused; any other boots the bytes of its lines, in file order; more than 256 bytes are refused, and the text of every
program of at most 256 bytes boots it. What counts as white space is log entry 17, the refusal's name log entry 6. -/
def Obligations.ProgramFileLoadsItsBytes : Prop :=
  (∀ line comment : List Char, '#' ∉ line → loadLine (line ++ '#' :: comment) = loadLine line) ∧
  (∀ blanks : List Char, (∀ c ∈ blanks, isBlankChar c = true) → loadLine blanks = .skip) ∧
  (∀ (before after : List Char) (bits : List Bool), (∀ c ∈ before ++ after, isBlankChar c = true) → bits ≠ [] →
    (bitsValue bits ≤ 255 →
      loadLine (before ++ binaryLiteral bits ++ after) = .byte (BitVec.ofNat 8 (bitsValue bits))) ∧
    (255 < bitsValue bits → loadLine (before ++ binaryLiteral bits ++ after) = .malformed)) ∧
  (∀ (line : List Char) (c : Char), c ∈ trimBlanks (stripComment line) → c ≠ '0' → c ≠ '1' →
    loadLine line = .malformed) ∧
  (∀ lines : List (List Char), (∀ line ∈ lines, '\n' ∉ line) → splitLines (fileText lines) = lines ++ [[]]) ∧
  (∀ (text line : List Char), line ∈ splitLines text → loadLine line = .malformed →
    bootFile text = .refused .loadError) ∧
  (∀ text : List Char, (∀ line ∈ splitLines text, loadLine line ≠ .malformed) → ∃ program : List Byte,
    program.map LoadedLine.byte = ((splitLines text).map loadLine).filter (fun l => l != .skip) ∧
    bootFile text = boot program) ∧
  (∀ program : List Byte, 256 < program.length → boot program = .refused .loadError) ∧
  (∀ program : List Byte, program.length ≤ 256 → ∃ s, bootFile (fileText (program.map byteLine)) = .next s ∧
    boot program = .next s)

/-- Derived from R83 and R84 (D20): every mnemonic, long or short, names its operation, and the text of a well-formed
instruction assembles to it. -/
def Obligations.AssemblerReadsWhatItWrites : Prop :=
  (∀ o : Op, opOfName (longName o) = some o ∧ opOfName (shortName o) = some o) ∧
  (∀ i : Instr, i.wellFormed = true → assembleLine (disassemble i) = some i)

/-- Derived from R249 (D22): what is observed is a terminal state the run reaches; every such state is observed with
enough fuel; and more fuel never changes an observation. -/
def Obligations.ObservationIsOfATerminalState : Prop :=
  (∀ (fuel : Nat) (s : State) (o : Observation), observe fuel s = some o →
    ∃ t, Reaches s t ∧ t.Terminal ∧ o = t.observation) ∧
  (∀ s t : State, Reaches s t → t.Terminal → ∃ fuel, observe fuel s = some t.observation) ∧
  (∀ (fuel more : Nat) (s : State) (o : Observation), observe fuel s = some o → observe (fuel + more) s = some o)
end

