-- ==== Sys2Proof/Laws/Decode.lean ====
section
/-! SUPPORT. The decoder and the encoder: the opcode lookup, the operand stage, and how well-formedness and the decoder's
register check agree. -/

namespace Sys2Proof

theorem Op.mem_all (o : Op) : o ∈ Op.all := by cases o <;> decide

theorem opcodeByte_injective : OpcodeMap.Injective opcodeByte := by
  intro o o' h
  revert h
  cases o <;> cases o' <;> decide

/-- What the lookup finds has the byte that was looked up. -/
theorem opOfByte_eq_some {m : OpcodeMap} {b : Byte} {o : Op} (h : opOfByte m b = some o) : m o = b := by
  simpa using List.find?_some h

/-- The lookup finds nothing exactly when no operation has the byte. -/
theorem opOfByte_eq_none {m : OpcodeMap} {b : Byte} : opOfByte m b = none ↔ ∀ o, m o ≠ b := by
  simp only [opOfByte, List.find?_eq_none, beq_iff_eq]
  exact ⟨fun h o => h o (Op.mem_all o), fun h o _ => h o⟩

/-- Under an injective map the lookup finds the operation of its byte. -/
theorem opOfByte_self {m : OpcodeMap} (hm : m.Injective) (o : Op) : opOfByte m (m o) = some o := by
  cases h : opOfByte m (m o) with
  | none => exact absurd rfl (opOfByte_eq_none.mp h o)
  | some o' => exact congrArg some (hm _ _ (opOfByte_eq_some h))

@[simp] theorem opOfByte_opcodeByte (o : Op) : opOfByte opcodeByte (opcodeByte o) = some o :=
  opOfByte_self opcodeByte_injective o

/-! ### Operands -/

@[simp] theorem length_operandBytes (i : Instr) : i.operandBytes.length = i.op.format.operandCount := by
  cases i <;> rfl

@[simp] theorem build_operandBytes (i : Instr) (rest : List Byte) :
    i.op.build ((i.operandBytes ++ rest).getD 0 0) ((i.operandBytes ++ rest).getD 1 0) = i := by
  cases i <;> rfl

@[simp] theorem op_build (o : Op) (a b : Byte) : (o.build a b).op = o := by cases o <;> rfl

/-- The operand bytes of an instruction built from enough bytes are those bytes. -/
theorem operandBytes_build (o : Op) (operands : List Byte) (h : o.format.operandCount ≤ operands.length) :
    (o.build (operands.getD 0 0) (operands.getD 1 0)).operandBytes = operands.take o.format.operandCount := by
  rcases operands with _ | ⟨a, _ | ⟨b, rest⟩⟩ <;> cases o <;>
    simp_all [Op.build, Instr.operandBytes, Op.format, Format.operandCount]

theorem firstBadRegister_eq_some {i : Instr} {r : Byte} (h : i.firstBadRegister = some r) :
    7 < r.toNat ∧ r ∈ i.regOperands :=
  ⟨by simpa using List.find?_some h, List.mem_of_find?_eq_some h⟩

/-- The decoder's register check passes exactly the well-formed instructions. -/
theorem firstBadRegister_eq_none {i : Instr} : i.firstBadRegister = none ↔ i.wellFormed = true := by
  cases i <;>
    simp [Instr.firstBadRegister, Instr.regOperands, Instr.wellFormed, namesRegister]

/-! ### The decoder, case by case -/

theorem decodeWith_cons (m : OpcodeMap) (b : Byte) (operands : List Byte) :
    decodeWith m (b :: operands) =
      match opOfByte m b with
      | none => .unknownOpcode b
      | some o => decodeOperands o operands := rfl

theorem decodeOperands_of_short {o : Op} {operands : List Byte} (h : operands.length < o.format.operandCount) :
    decodeOperands o operands = .truncated (1 + operands.length) := by
  simp [decodeOperands, h]

/-- With all operand bytes there, the decoder answers the instruction or its first bad register operand. -/
theorem decodeOperands_append (i : Instr) (rest : List Byte) :
    decodeOperands i.op (i.operandBytes ++ rest) =
      match i.firstBadRegister with
      | some r => .badRegister r
      | none => .ok i rest := by
  have h : ¬ (i.operandBytes ++ rest).length < i.op.format.operandCount := by simp
  have hd : (i.operandBytes ++ rest).drop i.op.format.operandCount = rest := by
    rw [← length_operandBytes i, List.drop_left]
  cases hb : i.firstBadRegister <;> simp only [decodeOperands, h, if_false, build_operandBytes, hd, hb]

@[simp] theorem length_encode (i : Instr) : (encode i).length = i.length := by
  simp [encode, encodeWith, Instr.length, Op.length, Nat.add_comm]

theorem length_le_three (i : Instr) : i.length ≤ 3 := by cases i <;> simp [Instr.length, Instr.op, Op.length, Op.format, Format.operandCount]

end Sys2Proof
end

