-- ==== Sys2Proof/Laws/State.lean ====
section
/-! SUPPORT. One lemma per field per update of the state, so that no later proof unfolds a record update. -/

namespace Sys2Proof.Machine

variable (s : State) (r : Reg) (v a : Byte) (n : Nat) (f : Flag) (c : Cause) (bytes : List Byte)

@[simp] theorem setReg_pc : (s.setReg r v).pc = s.pc := rfl
@[simp] theorem setReg_flag : (s.setReg r v).flag = s.flag := rfl
@[simp] theorem setReg_life : (s.setReg r v).life = s.life := rfl
@[simp] theorem setReg_fault : (s.setReg r v).fault = s.fault := rfl
@[simp] theorem setReg_out : (s.setReg r v).out = s.out := rfl
@[simp] theorem setReg_mem : (s.setReg r v).mem = s.mem := rfl

@[simp] theorem setSp_pc : (s.setSp v).pc = s.pc := rfl
@[simp] theorem setSp_flag : (s.setSp v).flag = s.flag := rfl
@[simp] theorem setSp_life : (s.setSp v).life = s.life := rfl
@[simp] theorem setSp_fault : (s.setSp v).fault = s.fault := rfl
@[simp] theorem setSp_out : (s.setSp v).out = s.out := rfl
@[simp] theorem setSp_mem : (s.setSp v).mem = s.mem := rfl

@[simp] theorem writeByte_regs : (s.writeByte a v).regs = s.regs := rfl
@[simp] theorem writeByte_pc : (s.writeByte a v).pc = s.pc := rfl
@[simp] theorem writeByte_flag : (s.writeByte a v).flag = s.flag := rfl
@[simp] theorem writeByte_life : (s.writeByte a v).life = s.life := rfl
@[simp] theorem writeByte_fault : (s.writeByte a v).fault = s.fault := rfl
@[simp] theorem writeByte_out : (s.writeByte a v).out = s.out := rfl
@[simp] theorem writeByte_mem : (s.writeByte a v).mem = s.mem.write a.toNat v := rfl

@[simp] theorem advance_regs : (s.advance n).regs = s.regs := rfl
@[simp] theorem advance_pc : (s.advance n).pc = s.pc + BitVec.ofNat 9 n := rfl
@[simp] theorem advance_flag : (s.advance n).flag = s.flag := rfl
@[simp] theorem advance_life : (s.advance n).life = s.life := rfl
@[simp] theorem advance_fault : (s.advance n).fault = s.fault := rfl
@[simp] theorem advance_out : (s.advance n).out = s.out := rfl
@[simp] theorem advance_mem : (s.advance n).mem = s.mem := rfl

@[simp] theorem jumpTo_regs : (s.jumpTo v).regs = s.regs := rfl
@[simp] theorem jumpTo_pc : (s.jumpTo v).pc = zext9 v := rfl
@[simp] theorem jumpTo_flag : (s.jumpTo v).flag = s.flag := rfl
@[simp] theorem jumpTo_life : (s.jumpTo v).life = s.life := rfl
@[simp] theorem jumpTo_fault : (s.jumpTo v).fault = s.fault := rfl
@[simp] theorem jumpTo_out : (s.jumpTo v).out = s.out := rfl
@[simp] theorem jumpTo_mem : (s.jumpTo v).mem = s.mem := rfl

@[simp] theorem setFlag_regs : (s.setFlag f).regs = s.regs := rfl
@[simp] theorem setFlag_pc : (s.setFlag f).pc = s.pc := rfl
@[simp] theorem setFlag_flag : (s.setFlag f).flag = f := rfl
@[simp] theorem setFlag_life : (s.setFlag f).life = s.life := rfl
@[simp] theorem setFlag_fault : (s.setFlag f).fault = s.fault := rfl
@[simp] theorem setFlag_out : (s.setFlag f).out = s.out := rfl
@[simp] theorem setFlag_mem : (s.setFlag f).mem = s.mem := rfl

@[simp] theorem emit_regs : (s.emit v).regs = s.regs := rfl
@[simp] theorem emit_pc : (s.emit v).pc = s.pc := rfl
@[simp] theorem emit_flag : (s.emit v).flag = s.flag := rfl
@[simp] theorem emit_life : (s.emit v).life = s.life := rfl
@[simp] theorem emit_fault : (s.emit v).fault = s.fault := rfl
@[simp] theorem emit_out : (s.emit v).out = s.out ++ [v] := rfl
@[simp] theorem emit_mem : (s.emit v).mem = s.mem := rfl

@[simp] theorem halt_regs : s.halt.regs = s.regs := rfl
@[simp] theorem halt_pc : s.halt.pc = s.pc := rfl
@[simp] theorem halt_flag : s.halt.flag = s.flag := rfl
@[simp] theorem halt_life : s.halt.life = .halted := rfl
@[simp] theorem halt_fault : s.halt.fault = s.fault := rfl
@[simp] theorem halt_out : s.halt.out = s.out := rfl
@[simp] theorem halt_mem : s.halt.mem = s.mem := rfl

@[simp] theorem raise_regs : (s.raise c n).regs = s.regs := rfl
@[simp] theorem raise_pc : (s.raise c n).pc = s.pc := rfl
@[simp] theorem raise_flag : (s.raise c n).flag = s.flag := rfl
@[simp] theorem raise_life : (s.raise c n).life = .faulted := rfl
@[simp] theorem raise_fault :
    (s.raise c n).fault = some ⟨c, s.pc, s.opcodeAtPc, BitVec.ofNat 9 n⟩ := rfl
@[simp] theorem raise_out : (s.raise c n).out = s.out := rfl
@[simp] theorem raise_mem : (s.raise c n).mem = s.mem := rfl

@[simp] theorem resetBlock_regs : s.resetBlock.regs = State.reset.regs := rfl
@[simp] theorem resetBlock_pc : s.resetBlock.pc = Config.pcReset := rfl
@[simp] theorem resetBlock_flag : s.resetBlock.flag = .unset := rfl
@[simp] theorem resetBlock_life : s.resetBlock.life = .running := rfl
@[simp] theorem resetBlock_fault : s.resetBlock.fault = none := rfl
@[simp] theorem resetBlock_out : s.resetBlock.out = [] := rfl
@[simp] theorem resetBlock_mem : s.resetBlock.mem = s.mem := rfl

@[simp] theorem storeAtPc_regs : (s.storeAtPc bytes).regs = s.regs := rfl
@[simp] theorem storeAtPc_pc : (s.storeAtPc bytes).pc = s.pc := rfl
@[simp] theorem storeAtPc_flag : (s.storeAtPc bytes).flag = s.flag := rfl
@[simp] theorem storeAtPc_life : (s.storeAtPc bytes).life = s.life := rfl
@[simp] theorem storeAtPc_fault : (s.storeAtPc bytes).fault = s.fault := rfl
@[simp] theorem storeAtPc_out : (s.storeAtPc bytes).out = s.out := rfl
@[simp] theorem storeAtPc_mem : (s.storeAtPc bytes).mem = s.mem.storeFrom s.pc.toNat bytes := rfl

/-! ### Reading a register -/

/-- Every update of a register is read back from it and from no other. -/
@[simp] theorem reg_setReg (q : Reg) : (s.setReg r v).reg q = if q = r then v else s.reg q := by
  simp [State.setReg, State.reg, Vector.getElem_set, Fin.ext_iff, eq_comm]

@[simp] theorem reg_setSp (q : Reg) : (s.setSp v).reg q = if q = Config.spIndex then v else s.reg q :=
  reg_setReg s Config.spIndex v q

@[simp] theorem reg_writeByte (q : Reg) : (s.writeByte a v).reg q = s.reg q := rfl
@[simp] theorem reg_advance (q : Reg) : (s.advance n).reg q = s.reg q := rfl
@[simp] theorem reg_jumpTo (q : Reg) : (s.jumpTo v).reg q = s.reg q := rfl
@[simp] theorem reg_setFlag (q : Reg) : (s.setFlag f).reg q = s.reg q := rfl
@[simp] theorem reg_emit (q : Reg) : (s.emit v).reg q = s.reg q := rfl
@[simp] theorem reg_halt (q : Reg) : s.halt.reg q = s.reg q := rfl
@[simp] theorem reg_raise (q : Reg) : (s.raise c n).reg q = s.reg q := rfl

@[simp] theorem sp_setReg : (s.setReg r v).sp = if Config.spIndex = r then v else s.sp := reg_setReg s r v _
@[simp] theorem sp_setSp : (s.setSp v).sp = v := by simp [State.sp]
@[simp] theorem sp_writeByte : (s.writeByte a v).sp = s.sp := rfl
@[simp] theorem sp_advance : (s.advance n).sp = s.sp := rfl
@[simp] theorem sp_jumpTo : (s.jumpTo v).sp = s.sp := rfl

/-- Two states with the same registers, read one by one, have the same register file. -/
theorem regs_ext {s t : State} (h : ∀ r, t.reg r = s.reg r) : t.regs = s.regs := by
  apply Vector.ext
  intro i hi
  exact h ⟨i, hi⟩

end Sys2Proof.Machine
end

