-- ==== Sys2Proof/Laws/Memory.lean ====
section
/-! SUPPORT. Memory: a read after a write, and that every memory operation keeps the canonical form. -/

namespace Sys2Proof.Machine

@[simp] theorem Memory.read_nil (a : Nat) : Memory.read [] a = Config.blankByte := rfl

theorem Memory.read_cons (a b : Nat) (v : Byte) (rest : Memory) :
    Memory.read ((a, v) :: rest) b = if a = b then v else Memory.read rest b := rfl

theorem Memory.read_erase (m : Memory) (a b : Nat) :
    (m.erase a).read b = if b = a then Config.blankByte else m.read b := by
  induction m with
  | nil => simp [Memory.erase]
  | cons e rest ih =>
    obtain ⟨c, w⟩ := e
    unfold Memory.erase at ih ⊢
    by_cases hca : c = a <;> by_cases hcb : c = b <;> simp_all [Memory.read_cons]

theorem Memory.read_insert (m : Memory) (a b : Nat) (v : Byte) (h : m.read a = Config.blankByte) (hm : m.erase a = m) :
    (m.insert a v).read b = if b = a then v else m.read b := by
  induction m with
  | nil => simp [Memory.insert, Memory.read_cons, eq_comm]
  | cons e rest ih =>
    obtain ⟨c, w⟩ := e
    have hca : ¬ c = a := by
      intro hc
      have : ((c, w) :: rest).length = (Memory.erase ((c, w) :: rest) a).length := by rw [hm]
      have hle := List.length_filter_le (fun e : Host.Cell => e.1 != a) rest
      simp [Memory.erase, hc] at this
      omega
    have hrest : Memory.erase rest a = rest := by
      simpa [Memory.erase, hca] using hm
    have hread : Memory.read rest a = Config.blankByte := by simpa [Memory.read_cons, hca] using h
    simp only [Memory.insert]
    split
    · simp [Memory.read_cons, eq_comm]
    · by_cases hcb : c = b
      · have : ¬ b = a := fun hba => hca (hcb.trans hba)
        simp [Memory.read_cons, hcb, this]
      · simp [Memory.read_cons, hcb, ih hread hrest]

theorem Memory.erase_erase (m : Memory) (a : Nat) : (m.erase a).erase a = m.erase a := by
  simp [Memory.erase]

/-- A write puts its value in its cell and leaves every other cell alone, in every memory. -/
@[simp] theorem Memory.read_write (m : Memory) (a b : Nat) (v : Byte) :
    (m.write a v).read b = if b = a then v else m.read b := by
  unfold Memory.write
  split
  · rename_i hv
    rw [Memory.read_erase, hv]
  · rw [Memory.read_insert _ _ _ _ (by simp [Memory.read_erase]) (Memory.erase_erase m a), Memory.read_erase]
    split <;> rfl

/-! ### The canonical form -/

/-- A canonical memory that starts at one address also starts at any lower one. -/
theorem Memory.wfFrom_mono {low low' : Nat} {m : Memory} (h : Memory.wfFrom low m = true) (hl : low' ≤ low) :
    Memory.wfFrom low' m = true := by
  cases m with
  | nil => rfl
  | cons e rest =>
    simp only [Memory.wfFrom, Bool.and_eq_true, decide_eq_true_eq] at h ⊢
    exact ⟨⟨⟨by omega, h.1.1.2⟩, h.1.2⟩, h.2⟩

theorem Memory.wfFrom_erase {low : Nat} {m : Memory} (h : Memory.wfFrom low m = true) (a : Nat) :
    Memory.wfFrom low (m.erase a) = true := by
  induction m generalizing low with
  | nil => rfl
  | cons e rest ih =>
    obtain ⟨b, w⟩ := e
    simp only [Memory.wfFrom, Bool.and_eq_true, decide_eq_true_eq] at h
    have hrest := ih h.2
    unfold Memory.erase at hrest ⊢
    by_cases hba : b = a
    · simpa [hba] using Memory.wfFrom_mono hrest (by omega)
    · simp only [bne_iff_ne, ne_eq, hba, not_false_eq_true, List.filter_cons_of_pos, Memory.wfFrom, Bool.and_eq_true,
        decide_eq_true_eq]
      exact ⟨h.1, hrest⟩

theorem Memory.wfFrom_insert {low a : Nat} {v : Byte} {m : Memory} (h : Memory.wfFrom low m = true) (hm : m.erase a = m)
    (hl : low ≤ a) (ha : a < Config.memSize) (hv : v ≠ Config.blankByte) : Memory.wfFrom low (m.insert a v) = true := by
  induction m generalizing low with
  | nil =>
    simp only [Memory.insert, Memory.wfFrom, Bool.and_eq_true, decide_eq_true_eq]
    exact ⟨⟨⟨hl, ha⟩, hv⟩, trivial⟩
  | cons e rest ih =>
    obtain ⟨b, w⟩ := e
    have hba : ¬ b = a := by
      intro hc
      have : ((b, w) :: rest).length = (Memory.erase ((b, w) :: rest) a).length := by rw [hm]
      have hle := List.length_filter_le (fun e : Host.Cell => e.1 != a) rest
      simp [Memory.erase, hc] at this
      omega
    have hrest : Memory.erase rest a = rest := by simpa [Memory.erase, hba] using hm
    simp only [Memory.wfFrom, Bool.and_eq_true, decide_eq_true_eq] at h
    simp only [Memory.insert]
    split
    · simp only [Memory.wfFrom, Bool.and_eq_true, decide_eq_true_eq]
      exact ⟨⟨⟨hl, ha⟩, hv⟩, ⟨⟨by omega, h.1.1.2⟩, h.1.2⟩, h.2⟩
    · simp only [Memory.wfFrom, Bool.and_eq_true, decide_eq_true_eq]
      exact ⟨h.1, ih h.2 hrest (by omega)⟩

/-- A write to an existing cell keeps the canonical form. -/
theorem Memory.wf_write {m : Memory} (h : m.wf = true) {a : Nat} (ha : a < Config.memSize) (v : Byte) :
    (m.write a v).wf = true := by
  unfold Memory.write
  split
  · exact Memory.wfFrom_erase h a
  · exact Memory.wfFrom_insert (Memory.wfFrom_erase h a) (Memory.erase_erase m a) (Nat.zero_le a) ha ‹_›

/-- Storing bytes keeps the canonical form: a byte without a cell is dropped. -/
theorem Memory.wf_storeFrom {m : Memory} (h : m.wf = true) (a : Nat) (bytes : List Byte) :
    (m.storeFrom a bytes).wf = true := by
  induction bytes generalizing m a with
  | nil => exact h
  | cons v rest ih =>
    simp only [Memory.storeFrom]
    refine ih ?_ (a + 1)
    split
    · exact Memory.wf_write h ‹_› v
    · exact h

theorem Memory.wf_reset : State.reset.mem.wf = true := rfl

/-- Storing bytes from `a` upward leaves the cells below `a` alone. -/
theorem Memory.read_storeFrom_below (m : Memory) (a b : Nat) (bytes : List Byte) (h : b < a) :
    (m.storeFrom a bytes).read b = m.read b := by
  induction bytes generalizing m a with
  | nil => rfl
  | cons v rest ih =>
    simp only [Memory.storeFrom]
    rw [ih _ (a + 1) (by omega)]
    split
    · have : ¬ b = a := by omega
      simp [this]
    · rfl

/-- What an existing cell reads as after bytes have been stored from `a` upward. -/
theorem Memory.read_storeFrom (m : Memory) (a b : Nat) (bytes : List Byte) (hb : b < Config.memSize) :
    (m.storeFrom a bytes).read b = if a ≤ b then (bytes[b - a]?).getD (m.read b) else m.read b := by
  induction bytes generalizing m a with
  | nil => simp [Memory.storeFrom]
  | cons v rest ih =>
    simp only [Memory.storeFrom]
    rcases Nat.lt_trichotomy b a with h | h | h
    · have h1 : ¬ a ≤ b := by omega
      rw [Memory.read_storeFrom_below _ _ _ _ (by omega : b < a + 1), if_neg h1]
      have h2 : ¬ b = a := by omega
      split <;> simp [h2]
    · subst h
      rw [Memory.read_storeFrom_below _ _ _ _ (by omega : b < b + 1)]
      simp [hb]
    · rw [ih]
      have h1 : a + 1 ≤ b := by omega
      have h2 : a ≤ b := by omega
      have h3 : b - a = (b - (a + 1)) + 1 := by omega
      have h4 : ¬ b = a := by omega
      rw [if_pos h1, if_pos h2, h3, List.getElem?_cons_succ]
      congr 1
      split <;> simp [h4]

/-! ### One byte through the state -/

@[simp] theorem readByte_writeByte (s : State) (a b v : Byte) :
    (s.writeByte a v).readByte b = if b = a then v else s.readByte b := by
  simp [State.readByte, BitVec.toNat_inj]

@[simp] theorem readByte_setReg (s : State) (r : Reg) (v a : Byte) : (s.setReg r v).readByte a = s.readByte a := rfl
@[simp] theorem readByte_setSp (s : State) (v a : Byte) : (s.setSp v).readByte a = s.readByte a := rfl
@[simp] theorem readByte_advance (s : State) (n : Nat) (a : Byte) : (s.advance n).readByte a = s.readByte a := rfl
@[simp] theorem readByte_jumpTo (s : State) (v a : Byte) : (s.jumpTo v).readByte a = s.readByte a := rfl
@[simp] theorem readByte_setFlag (s : State) (f : Flag) (a : Byte) : (s.setFlag f).readByte a = s.readByte a := rfl
@[simp] theorem readByte_emit (s : State) (v a : Byte) : (s.emit v).readByte a = s.readByte a := rfl
@[simp] theorem readByte_halt (s : State) (a : Byte) : s.halt.readByte a = s.readByte a := rfl
@[simp] theorem readByte_raise (s : State) (c : Cause) (n : Nat) (a : Byte) :
    (s.raise c n).readByte a = s.readByte a := rfl

end Sys2Proof.Machine
end

