-- ==== Sys2Proof/Laws/Ops.lean ====
section
/-! SUPPORT. What each shared operation of the meanings can do, said once: operands, the stack pointer, fault entry. -/

namespace Sys2Proof.Machine

/-! ### Operands -/

@[simp] theorem regOfByte_byteOfReg (r : Reg) : regOfByte (byteOfReg r) = some r := by
  revert r; decide

theorem byteOfReg_le (r : Reg) : (byteOfReg r).toNat ≤ 7 := by
  revert r; decide

theorem byteOfReg_injective {r q : Reg} (h : byteOfReg r = byteOfReg q) : r = q :=
  Option.some.inj (by rw [← regOfByte_byteOfReg r, h, regOfByte_byteOfReg])

/-- A byte up to 7 names a register. -/
theorem regOfByte_of_le {b : Byte} (h : b.toNat ≤ 7) : ∃ r : Reg, regOfByte b = some r ∧ byteOfReg r = b := by
  have h8 : b.toNat < 8 := by omega
  exact ⟨⟨b.toNat, h8⟩, by simp [regOfByte, h8], by simp [byteOfReg]⟩

/-- A byte above 7 names no register. -/
theorem regOfByte_of_gt {b : Byte} (h : 7 < b.toNat) : regOfByte b = none := by
  have : ¬ b.toNat < 8 := by omega
  simp [regOfByte, this]

@[simp] theorem withReg_byteOfReg (r : Reg) (s : State) (k : Reg → Host.Outcome State Fault Refusal) :
    withReg (byteOfReg r) s k = k r := by
  simp [withReg]

theorem withReg_of_gt {b : Byte} (h : 7 < b.toNat) (s : State) (k : Reg → Host.Outcome State Fault Refusal) :
    withReg b s k = .next (s.raise .badRegister b.toNat) := by
  simp [withReg, regOfByte_of_gt h]

/-- An operand byte either names a register and the meaning goes on with it, or it is the fault BadRegister. -/
theorem withReg_cases (b : Byte) (s : State) (k : Reg → Host.Outcome State Fault Refusal) :
    (∃ r, byteOfReg r = b ∧ withReg b s k = k r) ∨
      (7 < b.toNat ∧ withReg b s k = .next (s.raise .badRegister b.toNat)) := by
  by_cases h : b.toNat ≤ 7
  · obtain ⟨r, hr, hb⟩ := regOfByte_of_le h
    exact .inl ⟨r, hb, by simp [withReg, hr]⟩
  · exact .inr ⟨by omega, withReg_of_gt (by omega) s k⟩

/-! ### The stack pointer -/

theorem toNat_pushAddress (s : State) : s.pushAddress.toNat = s.sp.toNat - 1 := by
  have := s.sp.isLt
  simp only [State.pushAddress, BitVec.toNat_ofNat]
  omega

theorem decSp_of_zero {s : State} (h : s.sp.toNat = 0) : s.decSp = none := by
  simp only [State.decSp, h, if_true]

theorem decSp_of_pos {s : State} (h : s.sp.toNat ≠ 0) : s.decSp = some (s.setSp s.pushAddress) := by
  simp only [State.decSp, h, if_false]

theorem incSp_of_top {s : State} (h : s.sp.toNat = 255) : s.incSp = none := by
  simp only [State.incSp, h, if_true]

theorem incSp_of_lt {s : State} (h : s.sp.toNat ≠ 255) :
    s.incSp = some (s.setSp (BitVec.ofNat 8 (s.sp.toNat + 1))) := by
  simp only [State.incSp, h, if_false]

/-- A decrement of SP either moves it one down or is out of range at 0 (R142). -/
theorem decSp_cases (s : State) :
    (s.sp.toNat = 0 ∧ s.decSp = none) ∨ (s.sp.toNat ≠ 0 ∧ s.decSp = some (s.setSp s.pushAddress)) := by
  by_cases h : s.sp.toNat = 0
  · exact .inl ⟨h, decSp_of_zero h⟩
  · exact .inr ⟨h, decSp_of_pos h⟩

/-- An increment of SP either moves it one up or is out of range at 255 (R142). -/
theorem incSp_cases (s : State) :
    (s.sp.toNat = 255 ∧ s.incSp = none) ∨
      (s.sp.toNat ≠ 255 ∧ s.incSp = some (s.setSp (BitVec.ofNat 8 (s.sp.toNat + 1)))) := by
  by_cases h : s.sp.toNat = 255
  · exact .inl ⟨h, incSp_of_top h⟩
  · exact .inr ⟨h, incSp_of_lt h⟩

/-! ### The program counter and fault entry -/

@[simp] theorem toNat_zext9 (v : Byte) : (zext9 v).toNat = v.toNat := by
  have := v.isLt
  simp only [zext9, BitVec.toNat_setWidth]
  omega

/-- The opcode byte a fault entry records depends on `pc` and memory alone. -/
theorem opcodeAtPc_congr {s t : State} (hp : t.pc = s.pc) (hm : t.mem = s.mem) : t.opcodeAtPc = s.opcodeAtPc := by
  simp [State.opcodeAtPc, hp, hm]

@[simp] theorem opcodeAtPc_raise (s : State) (c : Cause) (n : Nat) : (s.raise c n).opcodeAtPc = s.opcodeAtPc := rfl

end Sys2Proof.Machine
end

