-- ==== Sys2Proof/Laws/Fetch.lean ====
section
/-! SUPPORT. The bytes the decoder is given, and what `InstructionAt` says about them. -/

namespace Sys2Proof.Machine

theorem fetchByte_eq_some {s : State} {a : Nat} {b : Byte} :
    s.fetchByte a = some b ↔ a ≤ 255 ∧ s.mem.read a = b := by
  simp [State.fetchByte]

theorem fetchByte_of_le (s : State) {a : Nat} (h : a ≤ 255) : s.fetchByte a = some (s.mem.read a) := by
  simp [State.fetchByte, h]

theorem fetchByte_of_gt (s : State) {a : Nat} (h : 255 < a) : s.fetchByte a = none := by
  simp [State.fetchByte, h]

/-- At `pc` above 255 there is nothing to fetch (R76). -/
theorem fetchBytes_of_gt {s : State} (h : 255 < s.pc.toNat) : s.fetchBytes = [] := by
  simp [State.fetchBytes, List.range, List.range.loop, fetchByte_of_gt, show 255 < s.pc.toNat + 1 by omega,
    show 255 < s.pc.toNat + 2 by omega, h]

/-- The decoder is given the bytes at `pc`, `pc+1` and `pc+2` that exist. -/
theorem fetchBytes_eq_map (s : State) :
    s.fetchBytes = (List.range (min 3 (256 - s.pc.toNat))).map (fun k => s.mem.read (s.pc.toNat + k)) := by
  unfold State.fetchBytes
  rcases Nat.lt_or_ge 255 s.pc.toNat with h | h
  · simp [List.range, List.range.loop, fetchByte_of_gt, show 255 < s.pc.toNat + 1 by omega,
      show 255 < s.pc.toNat + 2 by omega, h, show 256 - s.pc.toNat = 0 by omega]
  · rcases Nat.lt_or_ge 254 s.pc.toNat with h1 | h1
    · simp [List.range, List.range.loop, fetchByte_of_gt, fetchByte_of_le, show 255 < s.pc.toNat + 1 by omega,
        show 255 < s.pc.toNat + 2 by omega, h, show 256 - s.pc.toNat = 1 by omega]
    · rcases Nat.lt_or_ge 253 s.pc.toNat with h2 | h2
      · simp [List.range, List.range.loop, fetchByte_of_gt, fetchByte_of_le, show s.pc.toNat + 1 ≤ 255 by omega,
          show 255 < s.pc.toNat + 2 by omega, h, show 256 - s.pc.toNat = 2 by omega]
      · simp [List.range, List.range.loop, fetchByte_of_le, show s.pc.toNat + 1 ≤ 255 by omega,
          show s.pc.toNat + 2 ≤ 255 by omega, h, show min 3 (256 - s.pc.toNat) = 3 by omega]

theorem length_fetchBytes (s : State) : s.fetchBytes.length = min 3 (256 - s.pc.toNat) := by
  simp [fetchBytes_eq_map]

theorem getElem?_fetchBytes (s : State) (k : Nat) :
    s.fetchBytes[k]? = if k < 3 then s.fetchByte (s.pc.toNat + k) else none := by
  rw [fetchBytes_eq_map, List.getElem?_map]
  by_cases h : k < min 3 (256 - s.pc.toNat)
  · rw [List.getElem?_range h, if_pos (by omega), fetchByte_of_le s (by omega)]
    rfl
  · rw [List.getElem?_eq_none (by rw [List.length_range]; omega)]
    by_cases hk : k < 3
    · rw [if_pos hk, fetchByte_of_gt s (by omega)]
      rfl
    · rw [if_neg hk]
      rfl

/-- The bytes of the instruction at `pc` lead the list the decoder is given. -/
theorem instructionAt_fetchBytes {s : State} {bytes : List Byte} (h : s.InstructionAt bytes)
    (hl : bytes.length ≤ 3) : ∃ rest, s.fetchBytes = bytes ++ rest := by
  refine ⟨s.fetchBytes.drop bytes.length, ?_⟩
  have ht : s.fetchBytes.take bytes.length = bytes := by
    apply List.ext_getElem?
    intro k
    rw [List.getElem?_take]
    by_cases hk : k < bytes.length
    · have hb : bytes[k]? = some bytes[k] := List.getElem?_eq_getElem hk
      rw [if_pos hk, hb, getElem?_fetchBytes, if_pos (by omega)]
      exact h.2 k _ hb
    · rw [if_neg hk, List.getElem?_eq_none (by omega)]
  calc s.fetchBytes = s.fetchBytes.take bytes.length ++ s.fetchBytes.drop bytes.length :=
        (List.take_append_drop _ _).symm
    _ = bytes ++ s.fetchBytes.drop bytes.length := by rw [ht]

/-- The whole of an instruction at `pc` lies below address 256. -/
theorem instructionAt_end_le {s : State} {bytes : List Byte} (h : s.InstructionAt bytes) (hn : bytes ≠ []) :
    s.pc.toNat + bytes.length ≤ 256 := by
  have hlen : 0 < bytes.length := List.length_pos_iff.mpr hn
  have hb : bytes[bytes.length - 1]? = some bytes[bytes.length - 1] := List.getElem?_eq_getElem (by omega)
  have := (fetchByte_eq_some.mp (h.2 _ _ hb)).1
  omega

/-! ### What a step does, by what the decoder answers -/

theorem step_of_ok {s : State} {i : Instr} {rest : List Byte} (hl : s.life = .running)
    (h : s.decodeAtPc = .ok i rest) : step s = exec i s := by
  simp [step, hl, h]

theorem step_of_truncated {s : State} {k : Nat} (hl : s.life = .running) (h : s.decodeAtPc = .truncated k) :
    step s = .next (s.raise .fetchRange (s.pc.toNat + k)) := by
  simp [step, hl, h, State.raiseFetchRange]

theorem step_of_unknownOpcode {s : State} {b : Byte} (hl : s.life = .running)
    (h : s.decodeAtPc = .unknownOpcode b) : step s = .next (s.raise .unknownOpcode b.toNat) := by
  simp [step, hl, h, State.raiseUnknownOpcode]

theorem step_of_badRegister {s : State} {r : Byte} (hl : s.life = .running)
    (h : s.decodeAtPc = .badRegister r) : step s = .next (s.raise .badRegister r.toNat) := by
  simp [step, hl, h, State.raiseBadRegister]

end Sys2Proof.Machine
end

