-- ==== Sys2Proof/Laws/Exec.lean ====
section
/-! SUPPORT. Everything the meaning of an instruction can answer, said once: it completes with the effect its rule gives,
or it enters Faulted by one of the faults its rule lists. The invariants and frames are derived from this. -/

namespace Sys2Proof.Machine

/-- The state an instruction completes with, and on which operands and states it does. -/
def Completes (i : Instr) (s t : State) : Prop :=
  match i with
  | .halt => t = (s.advance 1).halt
  | .loadImmediate dest imm => ∃ r, byteOfReg r = dest ∧ t = (s.setReg r imm).advance 3
  | .printReg src => ∃ r, byteOfReg r = src ∧ t = (s.emit (s.reg r)).advance 2
  | .add a b => ∃ ra rb, byteOfReg ra = a ∧ byteOfReg rb = b ∧
      t = (s.setReg ra (aluAdd (s.reg ra) (s.reg rb))).advance 3
  | .mul a b => ∃ ra rb, byteOfReg ra = a ∧ byteOfReg rb = b ∧
      t = (s.setReg ra (aluMul (s.reg ra) (s.reg rb))).advance 3
  | .push src => ∃ r, byteOfReg r = src ∧ s.sp.toNat ≠ 0 ∧
      t = ((s.setSp s.pushAddress).writeByte s.pushAddress ((s.setSp s.pushAddress).reg r)).advance 2
  | .pop dest => ∃ r, byteOfReg r = dest ∧ (s.setReg r (s.readByte s.sp)).sp.toNat ≠ 255 ∧
      t = ((s.setReg r (s.readByte s.sp)).setSp
        (BitVec.ofNat 8 ((s.setReg r (s.readByte s.sp)).sp.toNat + 1))).advance 2
  | .call target => ∃ r, byteOfReg r = target ∧ s.pc.toNat + 2 ≤ 255 ∧ s.sp.toNat ≠ 0 ∧
      t = ((s.setSp s.pushAddress).writeByte s.pushAddress (BitVec.ofNat 8 (s.pc.toNat + 2))).jumpTo
        ((s.setSp s.pushAddress).reg r)
  | .ret => s.sp.toNat ≠ 255 ∧ t = (s.setSp (BitVec.ofNat 8 (s.sp.toNat + 1))).jumpTo (s.readByte s.sp)
  | .compare a b => ∃ ra rb, byteOfReg ra = a ∧ byteOfReg rb = b ∧
      t = (s.setFlag (compareFlag (s.reg ra) (s.reg rb))).advance 3
  | .jump target => ∃ r, byteOfReg r = target ∧ t = s.jumpTo (s.reg r)
  | .jumpIfEqual target => ∃ r, byteOfReg r = target ∧
      ((s.flag = .eq ∧ t = s.jumpTo (s.reg r)) ∨ (s.flag ≠ .eq ∧ t = s.advance 2))
  | .jumpIfNotEqual target => ∃ r, byteOfReg r = target ∧
      ((s.flag ≠ .eq ∧ t = s.jumpTo (s.reg r)) ∨ (s.flag = .eq ∧ t = s.advance 2))

/-- The cause and detail of a fault an instruction's meaning can raise, and when it does. -/
def RaisesFault (i : Instr) (s : State) (c : Cause) (d : Nat) : Prop :=
  (c = .badRegister ∧ ∃ r ∈ i.regOperands, 7 < r.toNat ∧ d = r.toNat) ∨
  (c = .returnRange ∧ i.op = .call ∧ 255 < s.pc.toNat + 2 ∧ d = s.pc.toNat + 2) ∨
  (c = .stackRange ∧ (i.op = .push ∨ i.op = .call) ∧ s.sp.toNat = 0 ∧ d = 0) ∨
  (c = .stackRange ∧ (i.op = .pop ∨ i.op = .ret) ∧ d = 255)

theorem isEq_iff (f : Flag) : f.isEq = true ↔ f = .eq := by cases f <;> simp [Flag.isEq]

/-! ### One operand stage, one lemma -/

/-- An operand of one register: what holds of the continuation's answers and of BadRegister holds of the whole. -/
theorem withReg_induct {P : Host.Outcome State Fault Refusal → Prop} (b : Byte) (s : State)
    (k : Reg → Host.Outcome State Fault Refusal) (hk : ∀ r, byteOfReg r = b → P (k r))
    (hbad : 7 < b.toNat → P (.next (s.raise .badRegister b.toNat))) : P (withReg b s k) := by
  obtain ⟨r, hr, h⟩ | ⟨h7, h⟩ := withReg_cases b s k
  · exact h ▸ hk r hr
  · exact h ▸ hbad h7

/-- An answer of a meaning: it completes, or it raises one of its faults. -/
def Answers (i : Instr) (s : State) (o : Host.Outcome State Fault Refusal) : Prop :=
  (∃ t, o = .next t ∧ Completes i s t) ∨ ∃ c d, o = .next (s.raise c d) ∧ RaisesFault i s c d

theorem answers_badRegister {i : Instr} {s : State} {b : Byte} (hb : b ∈ i.regOperands) (h : 7 < b.toNat) :
    Answers i s (.next (s.raise .badRegister b.toNat)) :=
  .inr ⟨_, _, rfl, .inl ⟨rfl, b, hb, h, rfl⟩⟩

theorem answers_of_completes {i : Instr} {s t : State} (h : Completes i s t) : Answers i s (.next t) :=
  .inl ⟨t, rfl, h⟩

/-- Everything an instruction can do. -/
theorem exec_answers (i : Instr) (s : State) : Answers i s (exec i s) := by
  cases i with
  | halt => exact answers_of_completes rfl
  | loadImmediate dest imm =>
    exact withReg_induct dest s _ (fun r hr => answers_of_completes ⟨r, hr, rfl⟩) (answers_badRegister (by simp [Instr.regOperands]))
  | printReg src =>
    exact withReg_induct src s _ (fun r hr => answers_of_completes ⟨r, hr, rfl⟩) (answers_badRegister (by simp [Instr.regOperands]))
  | add a b =>
    refine withReg_induct a s _ (fun ra ha => ?_) (answers_badRegister (by simp [Instr.regOperands]))
    exact withReg_induct b s _ (fun rb hb => answers_of_completes ⟨ra, rb, ha, hb, rfl⟩)
      (answers_badRegister (by simp [Instr.regOperands]))
  | mul a b =>
    refine withReg_induct a s _ (fun ra ha => ?_) (answers_badRegister (by simp [Instr.regOperands]))
    exact withReg_induct b s _ (fun rb hb => answers_of_completes ⟨ra, rb, ha, hb, rfl⟩)
      (answers_badRegister (by simp [Instr.regOperands]))
  | compare a b =>
    refine withReg_induct a s _ (fun ra ha => ?_) (answers_badRegister (by simp [Instr.regOperands]))
    exact withReg_induct b s _ (fun rb hb => answers_of_completes ⟨ra, rb, ha, hb, rfl⟩)
      (answers_badRegister (by simp [Instr.regOperands]))
  | push src =>
    refine withReg_induct src s _ (fun r hr => ?_) (answers_badRegister (by simp [Instr.regOperands]))
    obtain ⟨h, hd⟩ | ⟨h, hd⟩ := decSp_cases s
    · rw [hd]
      exact .inr ⟨_, _, rfl, .inr (.inr (.inl ⟨rfl, .inl rfl, h, rfl⟩))⟩
    · rw [hd]
      exact answers_of_completes ⟨r, hr, h, by simp⟩
  | pop dest =>
    refine withReg_induct dest s _ (fun r hr => ?_) (answers_badRegister (by simp [Instr.regOperands]))
    obtain ⟨h, hd⟩ | ⟨h, hd⟩ := incSp_cases (s.setReg r (s.readByte s.sp))
    · rw [hd]
      exact .inr ⟨_, _, rfl, .inr (.inr (.inr ⟨rfl, .inl rfl, rfl⟩))⟩
    · rw [hd]
      exact answers_of_completes ⟨r, hr, h, rfl⟩
  | call target =>
    refine withReg_induct target s _ (fun r hr => ?_) (answers_badRegister (by simp [Instr.regOperands]))
    by_cases hp : 255 < s.pc.toNat + 2
    · rw [if_pos hp]
      exact .inr ⟨_, _, rfl, .inr (.inl ⟨rfl, rfl, hp, rfl⟩)⟩
    · rw [if_neg hp]
      obtain ⟨h, hd⟩ | ⟨h, hd⟩ := decSp_cases s
      · rw [hd]
        exact .inr ⟨_, _, rfl, .inr (.inr (.inl ⟨rfl, .inr rfl, h, rfl⟩))⟩
      · rw [hd]
        exact answers_of_completes ⟨r, hr, by omega, h, by simp⟩
  | ret =>
    simp only [exec, execRet]
    obtain ⟨h, hd⟩ | ⟨h, hd⟩ := incSp_cases s
    · rw [hd]
      exact .inr ⟨_, _, rfl, .inr (.inr (.inr ⟨rfl, .inr rfl, rfl⟩))⟩
    · rw [hd]
      exact answers_of_completes ⟨h, rfl⟩
  | jump target =>
    exact withReg_induct target s _ (fun r hr => answers_of_completes ⟨r, hr, rfl⟩) (answers_badRegister (by simp [Instr.regOperands]))
  | jumpIfEqual target =>
    refine withReg_induct target s _ (fun r hr => ?_) (answers_badRegister (by simp [Instr.regOperands]))
    by_cases hf : s.flag = .eq
    · rw [if_pos ((isEq_iff _).mpr hf)]
      exact answers_of_completes ⟨r, hr, .inl ⟨hf, rfl⟩⟩
    · rw [if_neg (fun h => hf ((isEq_iff _).mp h))]
      exact answers_of_completes ⟨r, hr, .inr ⟨hf, rfl⟩⟩
  | jumpIfNotEqual target =>
    refine withReg_induct target s _ (fun r hr => ?_) (answers_badRegister (by simp [Instr.regOperands]))
    by_cases hf : s.flag = .eq
    · rw [if_pos ((isEq_iff _).mpr hf)]
      exact answers_of_completes ⟨r, hr, .inr ⟨hf, rfl⟩⟩
    · rw [if_neg (fun h => hf ((isEq_iff _).mp h))]
      exact answers_of_completes ⟨r, hr, .inl ⟨hf, rfl⟩⟩

/-- The same, from a next state. -/
theorem exec_next_cases {i : Instr} {s t : State} (h : exec i s = .next t) :
    Completes i s t ∨ ∃ c d, t = s.raise c d ∧ RaisesFault i s c d := by
  obtain ⟨u, hu, hc⟩ | ⟨c, d, hu, hf⟩ := exec_answers i s
  · rw [h] at hu
    cases hu
    exact .inl hc
  · rw [h] at hu
    cases hu
    exact .inr ⟨c, d, rfl, hf⟩

/-- Everything a step of a running block can do: an instruction's answer, or a fault of the decoder. -/
theorem step_next_cases {s t : State} (h : step s = .next t) :
    s.life = .running ∧
      ((∃ i rest, s.decodeAtPc = .ok i rest ∧ exec i s = .next t) ∨
        (∃ k, s.decodeAtPc = .truncated k ∧ t = s.raise .fetchRange (s.pc.toNat + k)) ∨
        (∃ b, s.decodeAtPc = .unknownOpcode b ∧ t = s.raise .unknownOpcode b.toNat) ∨
        ∃ r, s.decodeAtPc = .badRegister r ∧ t = s.raise .badRegister r.toNat) := by
  cases hl : s.life with
  | halted => simp [step, hl] at h
  | faulted => simp [step, hl] at h
  | running =>
    refine ⟨rfl, ?_⟩
    cases hd : s.decodeAtPc with
    | ok i rest => exact .inl ⟨i, rest, rfl, by rw [← h, step_of_ok hl hd]⟩
    | truncated k =>
      rw [step_of_truncated hl hd] at h
      cases h
      exact .inr (.inl ⟨k, rfl, rfl⟩)
    | unknownOpcode b =>
      rw [step_of_unknownOpcode hl hd] at h
      cases h
      exact .inr (.inr (.inl ⟨b, rfl, rfl⟩))
    | badRegister r =>
      rw [step_of_badRegister hl hd] at h
      cases h
      exact .inr (.inr (.inr ⟨r, rfl, rfl⟩))

/-! ### Each meaning on registers, as an equation -/

theorem exec_halt (s : State) : exec .halt s = .next (s.advance 1).halt := rfl

theorem exec_loadImmediate (r : Reg) (v : Byte) (s : State) :
    exec (.loadImmediate (byteOfReg r) v) s = .next ((s.setReg r v).advance 3) := by
  simp only [exec, execLoadImmediate, withReg_byteOfReg]

theorem exec_printReg (r : Reg) (s : State) :
    exec (.printReg (byteOfReg r)) s = .next ((s.emit (s.reg r)).advance 2) := by
  simp only [exec, execPrintReg, withReg_byteOfReg]

theorem exec_add (a b : Reg) (s : State) : exec (.add (byteOfReg a) (byteOfReg b)) s =
    .next ((s.setReg a (aluAdd (s.reg a) (s.reg b))).advance 3) := by
  simp only [exec, execAdd, withReg_byteOfReg]

theorem exec_mul (a b : Reg) (s : State) : exec (.mul (byteOfReg a) (byteOfReg b)) s =
    .next ((s.setReg a (aluMul (s.reg a) (s.reg b))).advance 3) := by
  simp only [exec, execMul, withReg_byteOfReg]

theorem exec_compare (a b : Reg) (s : State) : exec (.compare (byteOfReg a) (byteOfReg b)) s =
    .next ((s.setFlag (compareFlag (s.reg a) (s.reg b))).advance 3) := by
  simp only [exec, execCompare, withReg_byteOfReg]

theorem exec_jump (r : Reg) (s : State) : exec (.jump (byteOfReg r)) s = .next (s.jumpTo (s.reg r)) := by
  simp only [exec, execJump, withReg_byteOfReg]

theorem exec_jumpIfEqual (r : Reg) (s : State) : exec (.jumpIfEqual (byteOfReg r)) s =
    if s.flag.isEq then .next (s.jumpTo (s.reg r)) else .next (s.advance 2) := by
  simp only [exec, execJumpIfEqual, withReg_byteOfReg]

theorem exec_jumpIfNotEqual (r : Reg) (s : State) : exec (.jumpIfNotEqual (byteOfReg r)) s =
    if s.flag.isEq then .next (s.advance 2) else .next (s.jumpTo (s.reg r)) := by
  simp only [exec, execJumpIfNotEqual, withReg_byteOfReg]

theorem exec_push {s : State} (r : Reg) (h : s.sp.toNat ≠ 0) : exec (.push (byteOfReg r)) s =
    .next (((s.setSp s.pushAddress).writeByte s.pushAddress ((s.setSp s.pushAddress).reg r)).advance 2) := by
  simp only [exec, execPush, withReg_byteOfReg, decSp_of_pos h, sp_setSp]

theorem exec_push_of_zero {s : State} (r : Reg) (h : s.sp.toNat = 0) :
    exec (.push (byteOfReg r)) s = .next (s.raise .stackRange 0) := by
  simp only [exec, execPush, withReg_byteOfReg, decSp_of_zero h]

theorem exec_pop {s : State} (r : Reg) (h : (s.setReg r (s.readByte s.sp)).sp.toNat ≠ 255) :
    exec (.pop (byteOfReg r)) s = .next (((s.setReg r (s.readByte s.sp)).setSp
      (BitVec.ofNat 8 ((s.setReg r (s.readByte s.sp)).sp.toNat + 1))).advance 2) := by
  simp only [exec, execPop, withReg_byteOfReg, incSp_of_lt h]

theorem exec_pop_of_top {s : State} (r : Reg) (h : (s.setReg r (s.readByte s.sp)).sp.toNat = 255) :
    exec (.pop (byteOfReg r)) s = .next (s.raise .stackRange 255) := by
  simp only [exec, execPop, withReg_byteOfReg, incSp_of_top h]

theorem exec_call {s : State} (r : Reg) (hp : s.pc.toNat + 2 ≤ 255) (h : s.sp.toNat ≠ 0) :
    exec (.call (byteOfReg r)) s =
      .next (((s.setSp s.pushAddress).writeByte s.pushAddress (BitVec.ofNat 8 (s.pc.toNat + 2))).jumpTo
        ((s.setSp s.pushAddress).reg r)) := by
  simp only [exec, execCall, withReg_byteOfReg, decSp_of_pos h, if_neg (show ¬ 255 < s.pc.toNat + 2 by omega), sp_setSp]

theorem exec_call_of_returnRange {s : State} (r : Reg) (hp : 255 < s.pc.toNat + 2) :
    exec (.call (byteOfReg r)) s = .next (s.raise .returnRange (s.pc.toNat + 2)) := by
  simp only [exec, execCall, withReg_byteOfReg, if_pos hp]

theorem exec_call_of_zero {s : State} (r : Reg) (hp : s.pc.toNat + 2 ≤ 255) (h : s.sp.toNat = 0) :
    exec (.call (byteOfReg r)) s = .next (s.raise .stackRange 0) := by
  simp only [exec, execCall, withReg_byteOfReg, decSp_of_zero h, if_neg (show ¬ 255 < s.pc.toNat + 2 by omega)]

theorem exec_ret {s : State} (h : s.sp.toNat ≠ 255) :
    exec .ret s = .next ((s.setSp (BitVec.ofNat 8 (s.sp.toNat + 1))).jumpTo (s.readByte s.sp)) := by
  simp only [exec, execRet, incSp_of_lt h]

theorem exec_ret_of_top {s : State} (h : s.sp.toNat = 255) : exec .ret s = .next (s.raise .stackRange 255) := by
  simp only [exec, execRet, incSp_of_top h]

end Sys2Proof.Machine
end

