-- ==== Sys2Proof/Laws/Loader.lean ====
section
/-! SUPPORT. The loader: what trimming, literals, lines and files come to, so that later proofs need not unfold them. -/

namespace Sys2Proof.Machine

/-! ### Literals -/

theorem isBlankChar_bitChar (b : Bool) : isBlankChar (bitChar b) = false := by cases b <;> rfl

theorem bitChar_ne_hash (b : Bool) : bitChar b ≠ '#' := by cases b <;> decide

theorem hash_notMem_binaryLiteral (bits : List Bool) : '#' ∉ binaryLiteral bits := by
  intro h
  obtain ⟨b, _, hb⟩ := List.mem_map.mp h
  exact bitChar_ne_hash b hb

@[simp] theorem binaryValueFrom_bitChar (acc : Nat) (b : Bool) (rest : List Char) :
    binaryValueFrom acc (bitChar b :: rest) = binaryValueFrom (2 * acc + b.toNat) rest := by cases b <;> rfl

/-- A literal's digits have the value of its bits. -/
theorem binaryValueFrom_binaryLiteral (acc : Nat) (bits : List Bool) :
    binaryValueFrom acc (binaryLiteral bits) = some (bits.foldl (fun a b => 2 * a + b.toNat) acc) := by
  induction bits generalizing acc with
  | nil => rfl
  | cons b bits ih => exact (binaryValueFrom_bitChar acc b _).trans (ih _)

/-- A character that is no binary digit spoils a literal wherever it stands. -/
theorem binaryValueFrom_of_mem {c : Char} (h0 : c ≠ '0') (h1 : c ≠ '1') {text : List Char} (h : c ∈ text) (acc : Nat) :
    binaryValueFrom acc text = none := by
  induction text generalizing acc with
  | nil => cases h
  | cons d text ih =>
    simp only [binaryValueFrom, beq_iff_eq]
    rcases List.mem_cons.mp h with rfl | h
    · rw [if_neg h0, if_neg h1]
    · split
      · exact ih h _
      · split
        · exact ih h _
        · rfl

/-! ### Stripping -/

theorem stripComment_of_notMem {line : List Char} (h : '#' ∉ line) : stripComment line = line := by
  rw [stripComment, List.takeWhile_eq_self_iff]
  intro c hc
  simpa using fun he : c = '#' => h (he ▸ hc)

theorem stripComment_append_comment {line : List Char} (h : '#' ∉ line) (comment : List Char) :
    stripComment (line ++ '#' :: comment) = line := by
  rw [stripComment, List.takeWhile_append_of_pos]
  · simp
  · intro c hc
    simpa using fun he : c = '#' => h (he ▸ hc)

theorem dropWhile_blanks {blanks : List Char} (h : ∀ c ∈ blanks, isBlankChar c = true) (rest : List Char) :
    (blanks ++ rest).dropWhile isBlankChar = rest.dropWhile isBlankChar := List.dropWhile_append_of_pos h

theorem trimBlanks_blanks {blanks : List Char} (h : ∀ c ∈ blanks, isBlankChar c = true) : trimBlanks blanks = [] := by
  have hd : blanks.dropWhile isBlankChar = [] := by simpa using dropWhile_blanks h []
  simp [trimBlanks, hd]

/-- Trimming takes away blanks at both ends of a text without any, and nothing else. -/
theorem trimBlanks_around {before after text : List Char} (hb : ∀ c ∈ before, isBlankChar c = true)
    (ha : ∀ c ∈ after, isBlankChar c = true) (ht : ∀ c ∈ text, isBlankChar c = false) :
    trimBlanks (before ++ text ++ after) = text := by
  have keep : ∀ t : List Char, (∀ c ∈ t, isBlankChar c = false) → t.dropWhile isBlankChar = t := by
    intro t h
    cases t with
    | nil => rfl
    | cons c t => exact List.dropWhile_cons_of_neg (by simp [h c (List.mem_cons_self ..)])
  cases text with
  | nil => exact (trimBlanks_blanks (by simpa [or_imp, forall_and] using ⟨hb, ha⟩))
  | cons c t =>
    have hc : isBlankChar c = false := ht c (List.mem_cons_self ..)
    have h1 : (before ++ c :: t ++ after).dropWhile isBlankChar = c :: t ++ after := by
      rw [List.append_assoc, dropWhile_blanks hb, List.cons_append, List.dropWhile_cons_of_neg (by simp [hc])]
    rw [trimBlanks, h1, List.reverse_append, dropWhile_blanks (fun d hd => ha d (List.mem_reverse.mp hd)),
      keep _ (fun d hd => ht d (List.mem_reverse.mp hd)), List.reverse_reverse]

/-! ### Lines -/

/-- A line is skipped when nothing is left after stripping. -/
theorem loadLine_of_blank {line : List Char} (h : trimBlanks (stripComment line) = []) : loadLine line = .skip := by
  rw [loadLine, h]

/-- What a line loads as when a literal is left after stripping. -/
theorem loadLine_of_binaryLiteral {line : List Char} {bits : List Bool} (hne : bits ≠ [])
    (h : trimBlanks (stripComment line) = binaryLiteral bits) :
    loadLine line = if bitsValue bits ≤ 255 then .byte (BitVec.ofNat 8 (bitsValue bits)) else .malformed := by
  have hv : binaryValueFrom 0 (binaryLiteral bits) = some (bitsValue bits) := binaryValueFrom_binaryLiteral 0 bits
  unfold loadLine
  rw [h]
  split
  · rename_i he
    exact absurd (List.map_eq_nil_iff.mp he) hne
  · rw [hv]

/-- A line with any other character left after stripping is malformed. -/
theorem loadLine_of_mem {line : List Char} {c : Char} (h : c ∈ trimBlanks (stripComment line)) (h0 : c ≠ '0')
    (h1 : c ≠ '1') : loadLine line = .malformed := by
  unfold loadLine
  split
  · rename_i he
    rw [he] at h
    cases h
  · rw [binaryValueFrom_of_mem h0 h1 h]

theorem byteLine_eq (v : Byte) : byteLine v = binaryLiteral ((List.range 8).map (fun k => v.getLsbD (7 - k))) := by
  simp [byteLine, binaryLiteral]

theorem loadLine_byteLine : ∀ v : Byte, loadLine (byteLine v) = .byte v := by decide

theorem newline_notMem_byteLine (v : Byte) : '\n' ∉ byteLine v := by
  rw [byteLine_eq]
  intro h
  obtain ⟨b, _, hb⟩ := List.mem_map.mp h
  cases b <;> revert hb <;> decide

/-! ### Files -/

/-- One line more: it adds its byte, adds nothing, or makes the whole a load error. -/
theorem loadLines_cons (line : List Char) (more : List (List Char)) :
    (loadLine line = .malformed ∧ loadLines (line :: more) = none) ∨
      (loadLine line = .skip ∧ loadLines (line :: more) = loadLines more) ∨
      ∃ v, loadLine line = .byte v ∧ loadLines (line :: more) = (loadLines more).map (v :: ·) := by
  cases h : loadLine line with
  | malformed => exact .inl ⟨rfl, by simp [loadLines, h]⟩
  | skip => exact .inr (.inl ⟨rfl, by simp [loadLines, h]⟩)
  | byte v => exact .inr (.inr ⟨v, rfl, by simp [loadLines, h]⟩)

/-- A malformed line anywhere makes the whole a load error. -/
theorem loadLines_of_malformed {lines : List (List Char)} {line : List Char} (h : line ∈ lines)
    (hm : loadLine line = .malformed) : loadLines lines = none := by
  induction lines with
  | nil => cases h
  | cons l more ih =>
    obtain ⟨_, hl⟩ | ⟨hs, hl⟩ | ⟨v, hv, hl⟩ := loadLines_cons l more
    · exact hl
    · rcases List.mem_cons.mp h with rfl | h
      · rw [hm] at hs; cases hs
      · rw [hl, ih h]
    · rcases List.mem_cons.mp h with rfl | h
      · rw [hm] at hv; cases hv
      · rw [hl, ih h]; rfl

/-- The lines written for a program load to it, whatever lines follow. -/
theorem loadLines_byteLines (program : List Byte) (more : List (List Char)) :
    loadLines (program.map byteLine ++ more) = (loadLines more).map (program ++ ·) := by
  induction program with
  | nil => simp
  | cons v program ih => simp [loadLines, loadLine_byteLine, ih, Function.comp_def]

theorem splitLines_newline (rest : List Char) : splitLines ('\n' :: rest) = [] :: splitLines rest := rfl

theorem splitLines_ne_nil (text : List Char) : splitLines text ≠ [] := by
  cases text with
  | nil => simp [splitLines]
  | cons c rest => unfold splitLines; split <;> [simp; (split <;> simp)]

/-- A line and its newline character split off as that line. -/
theorem splitLines_line {line : List Char} (h : '\n' ∉ line) (rest : List Char) :
    splitLines (line ++ '\n' :: rest) = line :: splitLines rest := by
  induction line with
  | nil => rfl
  | cons c line ih =>
    have hc : ¬ c = '\n' := fun he => h (he ▸ List.mem_cons_self ..)
    have hl : '\n' ∉ line := fun he => h (List.mem_cons_of_mem _ he)
    simp [splitLines, hc, ih hl]

theorem bootFile_of_none {text : List Char} (h : loadLines (splitLines text) = none) :
    bootFile text = .refused .loadError := by rw [bootFile, h]

theorem bootFile_of_some {text : List Char} {program : List Byte} (h : loadLines (splitLines text) = some program) :
    bootFile text = boot program := by rw [bootFile, h]

end Sys2Proof.Machine
end

