-- ==== Sys2Proof/Laws/PerInstr.lean ====
section
/-! SUPPORT. The law family EncodingShape: what the encoding and the well-formedness of every instruction look like
(spec/30_encoding.md R70, R71, R78). -/

/-- An instruction is 1 to 3 bytes, its bytes are as many as its length says, its opcode byte leads them, and it is
well formed exactly when each of its register operands is at most 7. -/
def Sys2Proof.Laws.EncodingShape.Statement (i : Sys2Proof.Instr) : Prop :=
  (Sys2Proof.encode i).length = i.length ∧ 1 ≤ i.length ∧ i.length ≤ 3 ∧
    (Sys2Proof.encode i).head? = some (Sys2Proof.opcodeByte i.op) ∧
    (i.wellFormed = true ↔ ∀ r ∈ i.regOperands, r.toNat ≤ 7)

namespace Sys2Proof.Laws.EncodingShape

/-- The part of the statement that is the same for every instruction. -/
theorem shape (i : Instr) (h : i.wellFormed = true ↔ ∀ r ∈ i.regOperands, r.toNat ≤ 7) : Statement i :=
  ⟨length_encode i, Nat.le_add_right 1 _, length_le_three i, rfl, h⟩

theorem halt : Statement .halt := shape _ (by simp [Instr.wellFormed, Instr.regOperands])

theorem loadImmediate (dest imm : Byte) : Statement (.loadImmediate dest imm) :=
  shape _ (by simp [Instr.wellFormed, Instr.regOperands, namesRegister])

theorem printReg (src : Byte) : Statement (.printReg src) :=
  shape _ (by simp [Instr.wellFormed, Instr.regOperands, namesRegister])

theorem add (a b : Byte) : Statement (.add a b) :=
  shape _ (by simp [Instr.wellFormed, Instr.regOperands, namesRegister])

theorem mul (a b : Byte) : Statement (.mul a b) :=
  shape _ (by simp [Instr.wellFormed, Instr.regOperands, namesRegister])

theorem push (src : Byte) : Statement (.push src) :=
  shape _ (by simp [Instr.wellFormed, Instr.regOperands, namesRegister])

theorem pop (dest : Byte) : Statement (.pop dest) :=
  shape _ (by simp [Instr.wellFormed, Instr.regOperands, namesRegister])

theorem call (target : Byte) : Statement (.call target) :=
  shape _ (by simp [Instr.wellFormed, Instr.regOperands, namesRegister])

theorem ret : Statement .ret := shape _ (by simp [Instr.wellFormed, Instr.regOperands])

theorem compare (a b : Byte) : Statement (.compare a b) :=
  shape _ (by simp [Instr.wellFormed, Instr.regOperands, namesRegister])

theorem jump (target : Byte) : Statement (.jump target) :=
  shape _ (by simp [Instr.wellFormed, Instr.regOperands, namesRegister])

theorem jumpIfEqual (target : Byte) : Statement (.jumpIfEqual target) :=
  shape _ (by simp [Instr.wellFormed, Instr.regOperands, namesRegister])

theorem jumpIfNotEqual (target : Byte) : Statement (.jumpIfNotEqual target) :=
  shape _ (by simp [Instr.wellFormed, Instr.regOperands, namesRegister])

end Sys2Proof.Laws.EncodingShape
end

