-- ==== Sys2Proof/Tests/Slice0.lean ====
section
/-! SUPPORT. Tests. The expected results are the spec's: the words are written out from the table of R72, the vectors
(S, A, C, K, B, D) are those of spec/95_test_vectors.md. The last part shows, for every statement with hypotheses, a
concrete state and operands that meet them, at the boundary of each clause. -/

namespace Sys2Proof.Tests

open Sys2Proof Sys2Proof.Machine

/-- The reset state with `pc` and an instruction's bytes at it. -/
def placed (pc : PcWord) (bytes : List Byte) : State := { State.reset with pc := pc }.storeAtPc bytes

/-- The outcome is a next state with a property. -/
def nextIs (o : Host.Outcome State Fault Refusal) (p : State → Bool) : Bool :=
  match o with
  | .next t => p t
  | .fault _ => false
  | .refused _ => false

/-- The state is Faulted with this record. -/
def faultedWith (cause : Cause) (fpc : PcWord) (fopc : Byte) (detail : PcWord) (s : State) : Bool :=
  s.life == .faulted && s.fault == some ⟨cause, fpc, fopc, detail⟩

/-! ### Every constructor's decoding, by a word written out from R72 -/

theorem test_decode_halt : decode [0b00000001, 0xFF] = .ok .halt [0xFF] := by decide
theorem test_decode_loadImmediate : decode [0b10000010, 0b00000111, 0b11111111] = .ok (.loadImmediate 7 255) [] := by
  decide
theorem test_decode_printReg : decode [0b01000111, 0b00000111] = .ok (.printReg 7) [] := by decide
theorem test_decode_add : decode [0b10100000, 0b00000000, 0b00000111] = .ok (.add 0 7) [] := by decide
theorem test_decode_mul : decode [0b10100010, 0b00000111, 0b00000000] = .ok (.mul 7 0) [] := by decide
theorem test_decode_push : decode [0b01000101, 0b00000011] = .ok (.push 3) [] := by decide
theorem test_decode_pop : decode [0b01000110, 0b00000100] = .ok (.pop 4) [] := by decide
theorem test_decode_call : decode [0b01010000, 0b00000101] = .ok (.call 5) [] := by decide
theorem test_decode_ret : decode [0b00010001] = .ok .ret [] := by decide
theorem test_decode_compare : decode [0b10100111, 0b00000001, 0b00000010] = .ok (.compare 1 2) [] := by decide
theorem test_decode_jump : decode [0b01010100, 0b00000110] = .ok (.jump 6) [] := by decide
theorem test_decode_jumpIfEqual : decode [0b01010101, 0b00000000] = .ok (.jumpIfEqual 0) [] := by decide
theorem test_decode_jumpIfNotEqual : decode [0b01010110, 0b00000001] = .ok (.jumpIfNotEqual 1) [] := by decide

/-- R77: LD of the LS-8 is no instruction here; R78: op1 before op2; R76: the first missing byte. -/
theorem test_decode_rejects : decode [0x83, 0, 0] = .unknownOpcode 0x83 ∧ decode [0xA0, 9, 8] = .badRegister 9 ∧
    decode [0xA0, 7, 8] = .badRegister 8 ∧ decode [0xA0, 9] = .truncated 2 ∧ decode [] = .truncated 0 := by decide

theorem test_encode : encode (.loadImmediate 0 8) = [0x82, 0x00, 0x08] ∧ encode (.add 1 2) = [0xA0, 1, 2] ∧
    encode .ret = [0x11] := by decide

theorem test_tableWord : decodeTableWord 8 0xA2 = some (.mul 0 0) ∧
    decodeTableWord 24 0x080082 = some (.loadImmediate 0 8) ∧ decodeTableWord 16 0x0945 = none := by decide

/-! ### Well-formedness: an ill-formed term for each check -/

theorem test_wellFormed_refuses_dest : Instr.wellFormed (.loadImmediate 8 0) = false ∧
    Instr.wellFormed (.pop 8) = false := by decide
theorem test_wellFormed_refuses_src : Instr.wellFormed (.printReg 8) = false ∧
    Instr.wellFormed (.push 255) = false := by decide
theorem test_wellFormed_refuses_first : Instr.wellFormed (.add 8 0) = false ∧ Instr.wellFormed (.mul 8 0) = false ∧
    Instr.wellFormed (.compare 8 0) = false := by decide
theorem test_wellFormed_refuses_second : Instr.wellFormed (.add 0 8) = false ∧ Instr.wellFormed (.mul 0 8) = false ∧
    Instr.wellFormed (.compare 0 8) = false := by decide
theorem test_wellFormed_refuses_target : Instr.wellFormed (.call 8) = false ∧ Instr.wellFormed (.jump 8) = false ∧
    Instr.wellFormed (.jumpIfEqual 8) = false ∧ Instr.wellFormed (.jumpIfNotEqual 8) = false := by decide
/-- The immediate is no register operand and is never checked (R78). -/
theorem test_wellFormed_takes_immediates : Instr.wellFormed (.loadImmediate 7 255) = true := by decide

/-! ### One step each, by the vectors of spec/95_test_vectors.md -/

/-- A2: 200 + 100 wraps to 44. -/
theorem test_add_wraps : nextIs (step (((placed 0x10 [0xA0, 0, 1]).setReg 0 200).setReg 1 100))
    (fun t => t.reg 0 == 44 && t.reg 1 == 100 && t.pc == 0x13 && t.flag == .unset) = true := by decide
/-- A5: ADD to the stack pointer, no range check. -/
theorem test_add_sp : nextIs (step ((placed 0x10 [0xA0, 7, 1]).setReg 1 0x10)) (fun t => t.sp == 0x04) = true := by
  decide
/-- A12: 255 * 255 keeps its low byte. -/
theorem test_mul_low_byte : nextIs (step (((placed 0x10 [0xA2, 0, 1]).setReg 0 255).setReg 1 255))
    (fun t => t.reg 0 == 1 && t.pc == 0x13) = true := by decide
/-- A13: source and destination the same. -/
theorem test_mul_square : nextIs (step ((placed 0x10 [0xA2, 0, 0]).setReg 0 12)) (fun t => t.reg 0 == 144) = true := by
  decide
/-- A15: the comparison is unsigned. -/
theorem test_compare_unsigned : nextIs (step (((placed 0x10 [0xA7, 0, 1]).setReg 0 0x80).setReg 1 0x7F))
    (fun t => t.flag == .gt) = true := by decide
/-- A17: a register with itself, over an earlier flag. -/
theorem test_compare_self : nextIs (step (((placed 0x10 [0xA7, 2, 2]).setReg 2 9).setFlag .lt))
    (fun t => t.flag == .eq && t.reg 2 == 9) = true := by decide
/-- C2: HALT at address 255. -/
theorem test_halt_at_top : nextIs (step (placed 0xFF [0x01]))
    (fun t => t.life == .halted && t.pc == 256 && t.exitStatus == 0 && t.fault == none) = true := by decide
/-- C4: LOAD_IMMEDIATE to the stack pointer. -/
theorem test_loadImmediate_sp : nextIs (step (placed 0x10 [0x82, 7, 0])) (fun t => t.sp == 0 && t.pc == 0x13) = true := by
  decide
/-- C8: the last instruction that fits; `pc` becomes 256. -/
theorem test_loadImmediate_at_top : nextIs (step (placed 0xFD [0x82, 0, 5]))
    (fun t => t.reg 0 == 5 && t.pc == 256) = true := by decide
/-- C10: PRINT_REG R7 emits the stack pointer. -/
theorem test_printReg_sp : nextIs (step (placed 0x10 [0x47, 7])) (fun t => t.out == [244] && t.pc == 0x12) = true := by
  decide
/-- C11: a PRINT_REG whose operand lies above 255 emits nothing. -/
theorem test_printReg_truncated : nextIs (step (placed 0xFF [0x47]))
    (fun t => faultedWith .fetchRange 255 0x47 256 t && t.out == []) = true := by decide
/-- K2: PUSH R7 stores the decremented stack pointer. -/
theorem test_push_sp : nextIs (step (placed 0x10 [0x45, 7]))
    (fun t => t.sp == 0xF3 && t.readByte 0xF3 == 0xF3 && t.pc == 0x12) = true := by decide
/-- K4: PUSH with SP = 0. -/
theorem test_push_overflow : nextIs (step ((placed 0x10 [0x45, 0]).setSp 0))
    (faultedWith .stackRange 0x10 0x45 0) = true := by decide
/-- K5: the popped cell keeps its value. -/
theorem test_pop : nextIs (step (((placed 0x10 [0x46, 1]).setSp 0xF3).writeByte 0xF3 6))
    (fun t => t.reg 1 == 6 && t.sp == 0xF4 && t.readByte 0xF3 == 6) = true := by decide
/-- K6: POP R7 leaves the popped value plus 1. -/
theorem test_pop_sp : nextIs (step (((placed 0x10 [0x46, 7]).setSp 0xF3).writeByte 0xF3 0x10))
    (fun t => t.sp == 0x11) = true := by decide
/-- B2: CALL R7 jumps to the decremented stack pointer. -/
theorem test_call_sp : nextIs (step (placed 0x10 [0x50, 7]))
    (fun t => t.readByte 0xF3 == 0x12 && t.sp == 0xF3 && t.pc == 0xF3) = true := by decide
/-- B3: the return address 256 does not fit a cell. -/
theorem test_call_at_top : nextIs (step (placed 0xFE [0x50, 1])) (faultedWith .returnRange 254 0x50 256) = true := by
  decide
/-- B6. -/
theorem test_ret : nextIs (step (((placed 0x10 [0x11]).setSp 0xF3).writeByte 0xF3 8))
    (fun t => t.sp == 0xF4 && t.pc == 0x08) = true := by decide
/-- B7: RETURN with SP = 255. -/
theorem test_ret_underflow : nextIs (step (((placed 0x10 [0x11]).setSp 0xFF).writeByte 0xFF 8))
    (faultedWith .stackRange 0x10 0x11 255) = true := by decide
/-- B10: a JUMP to itself. -/
theorem test_jump_self : nextIs (step ((placed 0x10 [0x54, 2]).setReg 2 0x10)) (fun t => t.pc == 0x10) = true := by
  decide
/-- B11 and B13. -/
theorem test_jumpIfEqual : nextIs (step (((placed 0x10 [0x55, 3]).setReg 3 12).setFlag .eq)) (fun t => t.pc == 12) = true ∧
    nextIs (step ((placed 0x10 [0x55, 3]).setReg 3 12)) (fun t => t.pc == 0x12) = true := by decide
/-- B14: the operand is checked on a jump that is not taken. -/
theorem test_jumpIfEqual_bad_register : nextIs (step ((placed 0x10 [0x55, 8]).setFlag .lt))
    (faultedWith .badRegister 0x10 0x55 8) = true := by decide
/-- B18 and B19: an Unset flag counts as not equal. -/
theorem test_jumpIfNotEqual :
    nextIs (step ((placed 0x10 [0x56, 3]).setReg 3 12)) (fun t => t.pc == 12) = true ∧
    nextIs (step (((placed 0x10 [0x56, 3]).setReg 3 12).setFlag .eq)) (fun t => t.pc == 0x12) = true := by decide
/-- D3, D5: the decoder's faults. -/
theorem test_decoder_faults : nextIs (step (placed 0x10 [0x52, 0])) (faultedWith .unknownOpcode 0x10 0x52 82) = true ∧
    nextIs (step (placed 256 [])) (faultedWith .fetchRange 256 0x00 256) = true := by decide
/-- B5: the first failing check names the fault. -/
theorem test_fault_priority : nextIs (step ((placed 0xFE [0x50, 9]).setSp 0))
    (faultedWith .badRegister 254 0x50 9) = true := by decide
/-- S5: the empty program. -/
theorem test_empty_program : nextIs (step State.reset)
    (fun t => faultedWith .unknownOpcode 0 0x00 0 t && t.exitStatus == 1 && t.pc == 0) = true := by decide
/-- A word of the opcode table, placed at reset, runs as the first instruction. -/
theorem test_withFetchWord : nextIs (step (State.reset.withFetchWord 24 0x2A0082))
    (fun t => t.reg 0 == 42 && t.pc == 3) = true := by decide
/-- R85's example line, and R83's spellings. -/
theorem test_loader_and_assembler : loadLine "10000010 # LDI R0,8".toList = .byte 0x82 ∧
    assembleLine "LDI R0,8".toList = some (.loadImmediate 0 8) ∧
    assembleLine "LOAD_IMMEDIATE SP, 0b00001000".toList = some (.loadImmediate 7 8) ∧
    assembleLine "ADD R0, R8".toList = none := by decide

/-! ### Witnesses: a state and operands for every statement's hypotheses -/

/-- A closed check that bytes stand at `pc`. -/
def standsAt (s : State) (bytes : List Byte) : Bool :=
  s.life == .running && (List.range bytes.length).all (fun k => s.fetchByte (s.pc.toNat + k) == bytes[k]?)

theorem standsAt_sound {s : State} {bytes : List Byte} (h : standsAt s bytes = true) : s.InstructionAt bytes := by
  simp only [standsAt, Bool.and_eq_true, beq_iff_eq, List.all_eq_true, List.mem_range] at h
  refine ⟨h.1, fun k b hb => ?_⟩
  have hk : k < bytes.length := by
    by_contra hk
    rw [List.getElem?_eq_none (by omega)] at hb
    cases hb
  rw [h.2 k hk, hb]

/-- The register operands of a two-register instruction at their boundaries: both legal at the last address, the
operand bytes missing, the first bad, the second bad. -/
theorem witness_twoRegisters (o : Op) (h : o ∈ [Op.add, Op.mul, Op.compare]) :
    (placed 253 [opcodeByte o, 7, 0]).InstructionAt [opcodeByte o, byteOfReg 7, byteOfReg 0] ∧
    (placed 254 [opcodeByte o]).InstructionAt [opcodeByte o] ∧ (placed 255 [opcodeByte o]).InstructionAt [opcodeByte o] ∧
    (placed 16 [opcodeByte o, 8, 0]).InstructionAt [opcodeByte o, 8, 0] ∧
    (placed 16 [opcodeByte o, 7, 8]).InstructionAt [opcodeByte o, 7, 8] := by
  simp only [List.mem_cons, List.not_mem_nil, or_false] at h
  rcases h with rfl | rfl | rfl <;>
    exact ⟨standsAt_sound (by decide), standsAt_sound (by decide), standsAt_sound (by decide),
      standsAt_sound (by decide), standsAt_sound (by decide)⟩

/-- The same for a one-register instruction. -/
theorem witness_oneRegister (o : Op)
    (h : o ∈ [Op.printReg, Op.push, Op.pop, Op.call, Op.jump, Op.jumpIfEqual, Op.jumpIfNotEqual]) :
    (placed 254 [opcodeByte o, 7]).InstructionAt [opcodeByte o, byteOfReg 7] ∧
    (placed 255 [opcodeByte o]).InstructionAt [opcodeByte o] ∧
    (placed 16 [opcodeByte o, 8]).InstructionAt [opcodeByte o, 8] := by
  simp only [List.mem_cons, List.not_mem_nil, or_false] at h
  rcases h with rfl | rfl | rfl | rfl | rfl | rfl | rfl <;>
    exact ⟨standsAt_sound (by decide), standsAt_sound (by decide), standsAt_sound (by decide)⟩

theorem witness_AddSumsModulo256 :
    (placed 253 [0xA0, 7, 0]).InstructionAt [0xA0, byteOfReg 7, byteOfReg 0] ∧
    (placed 254 [0xA0]).InstructionAt [0xA0] := ⟨(witness_twoRegisters .add (by decide)).1,
      (witness_twoRegisters .add (by decide)).2.1⟩

theorem witness_MulKeepsLowByteOfProduct :
    (placed 253 [0xA2, 7, 0]).InstructionAt [0xA2, byteOfReg 7, byteOfReg 0] ∧
    (placed 254 [0xA2]).InstructionAt [0xA2] := ⟨(witness_twoRegisters .mul (by decide)).1,
      (witness_twoRegisters .mul (by decide)).2.1⟩

theorem witness_CompareSetsFlagByUnsignedOrder :
    (placed 253 [0xA7, 7, 0]).InstructionAt [0xA7, byteOfReg 7, byteOfReg 0] ∧
    (placed 254 [0xA7]).InstructionAt [0xA7] := ⟨(witness_twoRegisters .compare (by decide)).1,
      (witness_twoRegisters .compare (by decide)).2.1⟩

theorem witness_HaltStopsTheBlock : (placed 255 [0x01]).InstructionAt [0x01] := standsAt_sound (by decide)

theorem witness_LoadImmediateWritesConstant :
    (placed 253 [0x82, 7, 255]).InstructionAt [0x82, byteOfReg 7, 255] ∧ (placed 254 [0x82]).InstructionAt [0x82] ∧
    (placed 16 [0x82, 8, 0]).InstructionAt [0x82, 8, 0] :=
  ⟨standsAt_sound (by decide), standsAt_sound (by decide), standsAt_sound (by decide)⟩

theorem witness_PrintRegAppendsToOutput : (placed 254 [0x47, 7]).InstructionAt [0x47, byteOfReg 7] ∧
    ((placed 255 [0x47]).InstructionAt [0x47] ∧
      step (placed 255 [0x47]) = .next ((placed 255 [0x47]).raise .fetchRange 256)) :=
  ⟨(witness_oneRegister .printReg (by decide)).1, standsAt_sound (by decide), rfl⟩

theorem witness_PushStoresBelowStackPointer : (placed 254 [0x45, 7]).InstructionAt [0x45, byteOfReg 7] ∧
    ((placed 16 []).setSp 1).sp.toNat ≠ 0 ∧ ((placed 16 []).setSp 0).sp.toNat = 0 :=
  ⟨(witness_oneRegister .push (by decide)).1, by decide, by decide⟩

/-- The clauses of POP exclude each other: R7 or another register, and the value SP would move from. -/
theorem witness_PopReadsThenMovesStackPointer : (placed 254 [0x46, 7]).InstructionAt [0x46, byteOfReg 7] ∧
    ((0 : Reg) ≠ Config.spIndex ∧ ((placed 16 []).setSp 254).sp.toNat ≠ 255) ∧
    (((placed 16 []).writeByte 0xF4 254).readByte ((placed 16 []).writeByte 0xF4 254).sp).toNat ≠ 255 ∧
    ((6 : Reg) ≠ Config.spIndex ∧ ((placed 16 []).setSp 255).sp.toNat = 255) ∧
    (((placed 16 []).writeByte 0xF4 255).readByte ((placed 16 []).writeByte 0xF4 255).sp).toNat = 255 :=
  ⟨(witness_oneRegister .pop (by decide)).1, by decide, by decide, by decide, by decide⟩

theorem witness_CallPushesReturnAddressAndJumps : (placed 254 [0x50, 7]).InstructionAt [0x50, byteOfReg 7] ∧
    ((placed 253 []).pc.toNat + 2 ≤ 255 ∧ ((placed 253 []).setSp 1).sp.toNat ≠ 0) ∧
    255 < (placed 254 []).pc.toNat + 2 ∧
    ((placed 253 []).pc.toNat + 2 ≤ 255 ∧ ((placed 253 []).setSp 0).sp.toNat = 0) :=
  ⟨(witness_oneRegister .call (by decide)).1, by decide, by decide, by decide⟩

theorem witness_ReturnJumpsToTopOfStack : (placed 255 [0x11]).InstructionAt [0x11] ∧
    ((placed 16 []).setSp 254).sp.toNat ≠ 255 ∧ ((placed 16 []).setSp 255).sp.toNat = 255 :=
  ⟨standsAt_sound (by decide), by decide, by decide⟩

theorem witness_JumpGoesToRegister : (placed 254 [0x54, 7]).InstructionAt [0x54, byteOfReg 7] :=
  (witness_oneRegister .jump (by decide)).1

theorem witness_JumpIfEqualTestsForEqual : (placed 254 [0x55, 7]).InstructionAt [0x55, byteOfReg 7] ∧
    (State.reset.setFlag .eq).flag = .eq ∧ State.reset.flag ≠ .eq :=
  ⟨(witness_oneRegister .jumpIfEqual (by decide)).1, by decide, by decide⟩

theorem witness_JumpIfNotEqualTakesEveryOtherFlag : (placed 254 [0x56, 7]).InstructionAt [0x56, byteOfReg 7] ∧
    State.reset.flag = .unset ∧ (State.reset.setFlag .eq).flag = .eq :=
  ⟨(witness_oneRegister .jumpIfNotEqual (by decide)).1, by decide, by decide⟩

theorem witness_DecodeEncodeRoundTrip : opcodeByte.Injective ∧ Instr.wellFormed (.add 7 0) = true :=
  ⟨opcodeByte_injective, by decide⟩

theorem witness_DecoderAcceptsOnlyEncodings : decodeWith opcodeByte [0x45, 7, 9] = .ok (.push 7) [9] := by decide

theorem witness_DecoderReadsExactlyTheInstruction : decode (encode (.push 7) ++ [9]) = .ok (.push 7) [9] ∧
    (placed 254 [0x45, 7]).InstructionAt (encode (.push 7)) := ⟨by decide, standsAt_sound (by decide)⟩

theorem witness_FetchAbove255Faults : ((placed 256 []).life = .running ∧ 255 < (placed 256 []).pc.toNat) ∧
    (placed 255 [0x47]).InstructionAt [opcodeByte .printReg] ∧ 256 < (placed 255 [0x47]).pc.toNat + Op.length .printReg :=
  ⟨by decide, standsAt_sound (by decide), by decide⟩

theorem witness_IllegalOpcodesFault : (placed 255 [0x83]).InstructionAt [0x83] ∧ ∀ o, opcodeByte o ≠ 0x83 :=
  ⟨standsAt_sound (by decide), fun o => by cases o <;> decide⟩

theorem witness_BadRegisterIsCheckedFirst : (Instr.add 7 8).regOperands = [7] ++ 8 :: [] ∧
    (∀ q ∈ [(7 : Byte)], q.toNat ≤ 7) ∧ 7 < (8 : Byte).toNat ∧
    (placed 253 [0xA0, 7, 8]).InstructionAt (encode (.add 7 8)) :=
  ⟨by decide, by decide, by decide, standsAt_sound (by decide)⟩

theorem witness_MeaningsRaiseBadRegisterToo : (Instr.add 7 255).regOperands = [7] ++ 255 :: [] ∧
    (∀ q ∈ [(7 : Byte)], q.toNat ≤ 7) ∧ 7 < (255 : Byte).toNat := by decide

theorem witness_StepRunsTheInstructionAtPc : Instr.wellFormed (.loadImmediate 7 255) = true ∧
    (placed 253 [0x82, 7, 255]).InstructionAt (encode (.loadImmediate 7 255)) :=
  ⟨by decide, standsAt_sound (by decide)⟩

theorem witness_AdvancePastFetchedInstructionIsExact :
    (placed 253 [0x82, 7, 255]).InstructionAt (encode (.loadImmediate 7 255)) := standsAt_sound (by decide)

theorem witness_OnlyTerminalStatesHaveNoStep : State.reset.life = .running := rfl

theorem witness_TerminalStatesStopByName : State.reset.halt.life = .halted ∧
    (State.reset.raise .unknownOpcode 0).life = .faulted := by decide

/-- A step into Faulted, with `pc` at its greatest value. -/
theorem witness_FaultEntryChangesOnlyStatusAndRecord : (placed 256 []).pc.toNat ≤ 256 ∧
    step (placed 256 []) = .next ((placed 256 []).raise .fetchRange 256) ∧
    ((placed 256 []).raise .fetchRange 256).life = .faulted := ⟨by decide, rfl, rfl⟩

theorem witness_FaultRecordFollowsCauseTable : (placed 254 [0x50, 1]).pc.toNat ≤ 256 ∧
    step (placed 254 [0x50, 1]) = .next ((placed 254 [0x50, 1]).raise .returnRange 256) ∧
    ((placed 254 [0x50, 1]).raise .returnRange 256).life = .faulted := ⟨by decide, rfl, rfl⟩

theorem witness_CallReportsItsFirstFailingCheck :
    ((placed 254 [0x50, 8]).setSp 0).InstructionAt [0x50, 8] ∧ ((placed 254 [0x50, 7]).setSp 0).InstructionAt [0x50, 7] ∧
    (((placed 253 [0x50, 7]).setSp 0).InstructionAt [0x50, 7] ∧ ((placed 253 [0x50, 7]).setSp 0).sp.toNat = 0) ∧
    (((placed 253 [0x50, 7]).setSp 1).InstructionAt [0x50, 7] ∧ ((placed 253 [0x50, 7]).setSp 1).sp.toNat ≠ 0) :=
  ⟨standsAt_sound (by decide), standsAt_sound (by decide), ⟨standsAt_sound (by decide), by decide⟩,
    standsAt_sound (by decide), by decide⟩

theorem reset_inv : State.reset.Inv :=
  ⟨by decide, rfl, by decide, fun r h => by cases h⟩

/-- A Faulted state that meets the invariant, and a step that does not enter Faulted. -/
theorem witness_FaultPortsReadZeroUnlessFaulted : State.reset.Inv ∧ State.reset.life ≠ .faulted ∧
    ((State.reset.raise .unknownOpcode 0).Inv ∧ (State.reset.raise .unknownOpcode 0).life = .faulted) ∧
    step (placed 255 [0x01]) = .next ((placed 255 [0x01]).advance 1).halt ∧
    step State.reset = .next (State.reset.raise .unknownOpcode 0) :=
  ⟨reset_inv, by decide, ⟨⟨by decide, rfl, by decide, fun r h => by cases h; exact ⟨rfl, rfl⟩⟩, by decide⟩, rfl, rfl⟩

theorem witness_ExitStatusTellsHowTheRunEnded :
    step (placed 255 [0x01]) = .next ((placed 255 [0x01]).advance 1).halt := rfl

theorem witness_OnlyCompareWritesAndOnlyJumpsReadFlag : (Instr.op .ret ≠ .compare ∧ Instr.op .ret ≠ .jumpIfEqual ∧
    Instr.op .ret ≠ .jumpIfNotEqual) ∧ exec .ret State.reset = .next ((State.reset.setSp 0xF5).jumpTo 0) :=
  ⟨by decide, rfl⟩

theorem witness_RegistersChangeOnlyAsListed : exec .ret State.reset = .next ((State.reset.setSp 0xF5).jumpTo 0) ∧
    ((State.reset.setSp 0xF5).jumpTo 0).reg 7 ≠ State.reset.reg 7 := ⟨rfl, by decide⟩

theorem witness_OnlyPushAndCallStore :
    exec (.push 0) State.reset = .next (((State.reset.setSp 0xF3).writeByte 0xF3 0).advance 2) ∧
    Instr.op (.push 0) = .push ∧ (Instr.op .halt ≠ .push ∧ Instr.op .halt ≠ .call) ∧
    exec .halt State.reset = .next (State.reset.advance 1).halt := ⟨rfl, rfl, by decide, rfl⟩

theorem witness_OnlyPrintRegEmits :
    step (placed 254 [0x47, 7]) = .next (((placed 254 [0x47, 7]).emit 0xF4).advance 2) := rfl

theorem witness_StepMovesPcAsTheTableSays : Instr.wellFormed .halt = true ∧
    (placed 255 [0x01]).InstructionAt (encode .halt) ∧
    step (placed 255 [0x01]) = .next ((placed 255 [0x01]).advance 1).halt ∧
    ((placed 255 [0x01]).advance 1).halt.life ≠ .faulted := ⟨rfl, standsAt_sound (by decide), rfl, by decide⟩

theorem placed_inv : (placed 255 [0x01]).Inv :=
  ⟨by decide, rfl, by decide, fun r h => by cases h⟩

theorem witness_StepKeepsTheInvariant : (placed 255 [0x01]).Inv ∧
    step (placed 255 [0x01]) = .next ((placed 255 [0x01]).advance 1).halt := ⟨placed_inv, rfl⟩

theorem witness_BootedRunsMeetTheInvariant : ∃ s t, boot [0x01] = .next s ∧ Reaches s t ∧ t.life = .halted :=
  ⟨_, _, rfl, .step .here rfl, rfl⟩

theorem witness_PortTransactionsAreBoundedAndComplete :
    step (placed 16 [0x45, 7]) = .next ((((placed 16 [0x45, 7]).setSp 0xF3).writeByte 0xF3 0xF3).advance 2) := rfl

/-- Another memory that agrees on the one cell HALT reads and differs elsewhere. -/
theorem witness_UnreadCellsDoNotMatter :
    step (placed 255 [0x01]) = .next ((placed 255 [0x01]).advance 1).halt ∧
    (∀ e ∈ (placed 255 [0x01]).portEvents, ∀ a, e.readAddress = some a →
      Memory.read [(0, 7), (255, 1)] a.toNat = (placed 255 [0x01]).mem.read a.toNat) := by
  have h : (placed 255 [0x01]).portEvents = [.fetch 255 1] := by decide
  refine ⟨rfl, fun e he a ha => ?_⟩
  rw [h, List.mem_singleton] at he
  subst he
  cases ha
  decide

theorem witness_StoreIsSeenByTheNextFetch : ((placed 252 [0x45, 7]).setSp 255).InstructionAt [0x45, byteOfReg 7] ∧
    ((placed 252 [0x45, 7]).setSp 255).sp.toNat = ((placed 252 [0x45, 7]).setSp 255).pc.toNat + 3 :=
  ⟨standsAt_sound (by decide), by decide⟩

theorem witness_AddAndMulAreCommutativeAndAssociative :
    exec (.add (byteOfReg 0) (byteOfReg 7)) State.reset = .next ((State.reset.setReg 0 0xF4).advance 3) ∧
    exec (.add (byteOfReg 7) (byteOfReg 0)) State.reset = .next ((State.reset.setReg 7 0xF4).advance 3) ∧
    exec (.mul (byteOfReg 0) (byteOfReg 7)) State.reset = .next ((State.reset.setReg 0 0).advance 3) ∧
    exec (.mul (byteOfReg 7) (byteOfReg 0)) State.reset = .next ((State.reset.setReg 7 0).advance 3) :=
  ⟨rfl, rfl, rfl, rfl⟩

theorem witness_PushThenPopRoundTrips : (State.reset.setSp 1).sp.toNat ≠ 0 := by decide

theorem witness_CallThenReturnResumesAfterTheCall : (placed 253 []).pc.toNat + 2 ≤ 255 ∧
    ((placed 253 []).setSp 1).sp.toNat ≠ 0 := by decide

theorem witness_CompareDecidesTheConditionalJumps : State.reset.reg 0 = State.reset.reg 1 ∧
    State.reset.reg 0 ≠ State.reset.reg 7 ∧
    exec (.compare (byteOfReg 0) (byteOfReg 7)) State.reset = .next ((State.reset.setFlag .lt).advance 3) :=
  ⟨by decide, by decide, rfl⟩

theorem witness_JumpToItselfNeverEnds :
    ((placed 254 [0x54, 0]).setReg 0 254).InstructionAt [0x54, byteOfReg 0] ∧
    zext9 (((placed 254 [0x54, 0]).setReg 0 254).reg 0) = ((placed 254 [0x54, 0]).setReg 0 254).pc :=
  ⟨standsAt_sound (by decide), by decide⟩

theorem witness_ResetIsTheOnlyWayOutOfTerminalStates : State.reset.halt.Terminal := fun h => by cases h

theorem witness_BootLoadsTheProgramFromZero : (List.replicate 256 (1 : Byte)).length ≤ 256 := by
  rw [List.length_replicate]

/-- One witness for each clause: a literal at 255 and at 256, a stripped line with another character, lines without a
newline character, a text with a malformed line and one without, and the longest program. -/
theorem witness_ProgramFileLoadsItsBytes : '#' ∉ "10000010 ".toList ∧
    (∀ c ∈ [' ', '\t', '\r'], isBlankChar c = true) ∧
    (bitsValue (List.replicate 8 true) = 255 ∧ bitsValue (true :: List.replicate 8 false) = 256) ∧
    '2' ∈ trimBlanks (stripComment " 1021 # x".toList) ∧ (∀ line ∈ ["1".toList, "0 # x".toList], '\n' ∉ line) ∧
    ("0x1".toList ∈ splitLines "1\n0x1\n".toList ∧ loadLine "0x1".toList = .malformed) ∧
    (∀ line ∈ splitLines "1\n# x\n\n10".toList, loadLine line ≠ .malformed) :=
  ⟨by decide, by simp [isBlankChar], by decide, by decide, by decide, by decide, by decide⟩

theorem witness_ProgramFileLoadsItsBytes_length : (List.replicate 256 (1 : Byte)).length ≤ 256 ∧
    256 < (List.replicate 257 (1 : Byte)).length := by
  rw [List.length_replicate, List.length_replicate]; decide

theorem witness_AssemblerReadsWhatItWrites : Instr.wellFormed (.loadImmediate 7 255) = true := by decide

theorem witness_ObservationIsOfATerminalState :
    observe 1 (placed 255 [0x01]) = some (((placed 255 [0x01]).advance 1).halt).observation ∧
    Reaches (placed 255 [0x01]) ((placed 255 [0x01]).advance 1).halt ∧
    (((placed 255 [0x01]).advance 1).halt).Terminal := ⟨rfl, .step .here rfl, fun h => by cases h⟩

end Sys2Proof.Tests
end

section
/-! The decoder and the step, inverted; then the state family's statements about the fault ports, the exit status and
the flag. -/

namespace Sys2Proof

/-! ### What the decoder answers, inverted -/

/-- Enough operand bytes are the operand bytes of an instruction of the operation, and more bytes after them. -/
theorem exists_operandBytes_append (o : Op) {operands : List Byte} (h : o.format.operandCount ≤ operands.length) :
    ∃ i : Instr, i.op = o ∧ ∃ rest, operands = i.operandBytes ++ rest := by
  refine ⟨o.build (operands.getD 0 0) (operands.getD 1 0), op_build _ _ _, operands.drop o.format.operandCount, ?_⟩
  rw [operandBytes_build o operands h, List.take_append_drop]

theorem operandCount_le_two (o : Op) : o.format.operandCount ≤ 2 := by cases o <;> decide

/-- Everything the decoder can answer, and on which bytes (R76 to R78): too few bytes, an opcode byte outside the map,
the encoding of an instruction with a bad register, or that of a well-formed one. -/
theorem decodeWith_cases (m : OpcodeMap) (bytes : List Byte) :
    (bytes.length < 3 ∧ decodeWith m bytes = .truncated bytes.length) ∨
    (∃ b rest, bytes = b :: rest ∧ (∀ o, m o ≠ b) ∧ decodeWith m bytes = .unknownOpcode b) ∨
    (∃ i r rest, bytes = encodeWith m i ++ rest ∧ i.firstBadRegister = some r ∧
      decodeWith m bytes = .badRegister r) ∨
    (∃ i rest, bytes = encodeWith m i ++ rest ∧ i.wellFormed = true ∧ decodeWith m bytes = .ok i rest) := by
  cases bytes with
  | nil => exact .inl ⟨by decide, rfl⟩
  | cons b operands =>
    rw [decodeWith_cons]
    cases hb : opOfByte m b with
    | none => exact .inr (.inl ⟨b, operands, rfl, opOfByte_eq_none.mp hb, rfl⟩)
    | some o =>
      by_cases hlen : operands.length < o.format.operandCount
      · have h2 := operandCount_le_two o
        exact .inl ⟨by rw [List.length_cons]; omega, by
          simp only [decodeOperands_of_short hlen, List.length_cons, Nat.add_comm]⟩
      · obtain ⟨i, hi, rest, rfl⟩ := exists_operandBytes_append o (Nat.le_of_not_lt hlen)
        have henc : b :: (i.operandBytes ++ rest) = encodeWith m i ++ rest := by
          rw [encodeWith, hi, opOfByte_eq_some hb, List.cons_append]
        subst hi
        simp only [decodeOperands_append]
        cases hr : i.firstBadRegister with
        | none => exact .inr (.inr (.inr ⟨i, rest, henc, firstBadRegister_eq_none.mp hr, rfl⟩))
        | some r => exact .inr (.inr (.inl ⟨i, r, rest, henc, hr, rfl⟩))

/-- A well-formed instruction has no register operand above 7. -/
theorem le_seven_of_wellFormed {i : Instr} (h : i.wellFormed = true) {r : Byte} (hr : r ∈ i.regOperands) :
    r.toNat ≤ 7 := by
  have hbad := List.find?_eq_none.mp (firstBadRegister_eq_none.mpr h) r hr
  simpa using hbad

/-- An instruction with a register operand is neither HALT nor RETURN. -/
theorem op_ne_of_mem_regOperands {i : Instr} {r : Byte} (h : r ∈ i.regOperands) : i.op ≠ .halt ∧ i.op ≠ .ret := by
  cases i <;> simp_all [Instr.regOperands, Instr.op]

end Sys2Proof

namespace Sys2Proof.Machine

/-! ### What the decoder answers at `pc` -/

/-- A byte that leads the list the decoder is given is the opcode byte at `pc`, and the whole list lies below
address 256. -/
theorem fetchBytes_eq_cons {s : State} {b : Byte} {rest : List Byte} (h : s.fetchBytes = b :: rest) :
    s.opcodeAtPc = b ∧ s.pc.toNat + 1 + rest.length ≤ 256 := by
  have hlen := length_fetchBytes s
  have hhead := getElem?_fetchBytes s 0
  rw [h, List.length_cons] at hlen
  rw [h, List.getElem?_cons_zero, if_pos (by decide)] at hhead
  obtain ⟨hpc, hb⟩ := fetchByte_eq_some.mp hhead.symm
  exact ⟨(if_pos hpc).trans hb, by omega⟩

/-- The encoding of an instruction at `pc`: its opcode byte stands there and its last byte below address 256. -/
theorem fetchBytes_eq_encode {s : State} {i : Instr} {rest : List Byte}
    (h : s.fetchBytes = encodeWith opcodeByte i ++ rest) :
    s.opcodeAtPc = opcodeByte i.op ∧ s.pc.toNat + i.length ≤ 256 := by
  rw [encodeWith, List.cons_append] at h
  obtain ⟨hop, hle⟩ := fetchBytes_eq_cons h
  rw [List.length_append, length_operandBytes] at hle
  exact ⟨hop, by rw [Instr.length, Op.length]; omega⟩

/-- An instruction the decoder answers is well formed, its opcode byte stands at `pc` and it ends by address 255. -/
theorem decodeAtPc_ok {s : State} {i : Instr} {rest : List Byte} (h : s.decodeAtPc = .ok i rest) :
    i.wellFormed = true ∧ s.opcodeAtPc = opcodeByte i.op ∧ s.pc.toNat + i.length ≤ 256 := by
  obtain ⟨-, hd⟩ | ⟨_, _, -, -, hd⟩ | ⟨_, _, _, -, -, hd⟩ | ⟨j, _, hb, hwf, hd⟩ :=
    decodeWith_cases opcodeByte s.fetchBytes <;> cases hd.symm.trans h
  exact ⟨hwf, fetchBytes_eq_encode hb⟩

/-- The first missing byte of an instruction is the one at address 256 (R76). -/
theorem decodeAtPc_truncated {s : State} {k : Nat} (hpc : s.pc.toNat ≤ 256) (h : s.decodeAtPc = .truncated k) :
    s.pc.toNat + k = 256 := by
  obtain ⟨hlt, hd⟩ | ⟨_, _, -, -, hd⟩ | ⟨_, _, _, -, -, hd⟩ | ⟨_, _, -, -, hd⟩ :=
    decodeWith_cases opcodeByte s.fetchBytes <;> cases hd.symm.trans h
  rw [length_fetchBytes] at hlt ⊢
  omega

/-- An opcode byte the decoder does not know stands at `pc` and is no operation's (R77). -/
theorem decodeAtPc_unknownOpcode {s : State} {b : Byte} (h : s.decodeAtPc = .unknownOpcode b) :
    s.opcodeAtPc = b ∧ ∀ o, opcodeByte o ≠ b := by
  obtain ⟨-, hd⟩ | ⟨_, _, hb, hno, hd⟩ | ⟨_, _, _, -, -, hd⟩ | ⟨_, _, -, -, hd⟩ :=
    decodeWith_cases opcodeByte s.fetchBytes <;> cases hd.symm.trans h
  exact ⟨(fetchBytes_eq_cons hb).1, hno⟩

/-- A register operand the decoder refuses is above 7 and belongs to an instruction whose opcode byte stands at `pc`
(R78). -/
theorem decodeAtPc_badRegister {s : State} {r : Byte} (h : s.decodeAtPc = .badRegister r) :
    7 < r.toNat ∧ ∃ i : Instr, r ∈ i.regOperands ∧ s.opcodeAtPc = opcodeByte i.op := by
  obtain ⟨-, hd⟩ | ⟨_, _, -, -, hd⟩ | ⟨i, _, _, hb, hbad, hd⟩ | ⟨_, _, -, -, hd⟩ :=
    decodeWith_cases opcodeByte s.fetchBytes <;> cases hd.symm.trans h
  obtain ⟨h7, hmem⟩ := firstBadRegister_eq_some hbad
  exact ⟨h7, i, hmem, (fetchBytes_eq_encode hb).1⟩

/-! ### The record of a fault, cause by cause (R201) -/

/-- The record a fault entry from this state fills (R202). -/
def State.raiseRecord (s : State) (c : Cause) (d : Nat) : FaultRecord := ⟨c, s.pc, s.opcodeAtPc, BitVec.ofNat 9 d⟩

theorem raise_fault_eq_raiseRecord (s : State) (c : Cause) (d : Nat) : (s.raise c d).fault = some (s.raiseRecord c d) :=
  rfl

theorem opcodeAtPc_of_pc_eq_256 {s : State} (h : s.pc = 256) : s.opcodeAtPc = 0 := by
  rw [State.opcodeAtPc, h, if_neg (by decide)]

theorem fetchRange_followsTable {s : State} {k : Nat} (hpc : s.pc.toNat ≤ 256) (h : s.decodeAtPc = .truncated k) :
    (s.raiseRecord .fetchRange (s.pc.toNat + k)).FollowsTable :=
  ⟨by rw [decodeAtPc_truncated hpc h]; rfl, opcodeAtPc_of_pc_eq_256⟩

theorem unknownOpcode_followsTable {s : State} {b : Byte} (h : s.decodeAtPc = .unknownOpcode b) :
    (s.raiseRecord .unknownOpcode b.toNat).FollowsTable := by
  obtain ⟨rfl, hno⟩ := decodeAtPc_unknownOpcode h
  exact ⟨BitVec.ofNat_toNat 9 s.opcodeAtPc, hno⟩

theorem badRegister_followsTable {s : State} {r : Byte} (h : s.decodeAtPc = .badRegister r) :
    (s.raiseRecord .badRegister r.toNat).FollowsTable := by
  obtain ⟨h7, i, hmem, hop⟩ := decodeAtPc_badRegister h
  obtain ⟨hhalt, hret⟩ := op_ne_of_mem_regOperands hmem
  have hdetail : (s.raiseRecord .badRegister r.toNat).detail.toNat = r.toNat := by
    have := r.isLt
    simp only [State.raiseRecord, BitVec.toNat_ofNat]
    omega
  exact ⟨h7.trans_eq hdetail.symm, hdetail.trans_le (Nat.le_of_lt_succ r.isLt), i.op, hop.symm, hhalt, hret⟩

/-- A fault raised by an instruction the decoder answered has the detail and the opcode byte of its row. -/
theorem raisesFault_followsTable {s : State} {i : Instr} {rest : List Byte} {c : Cause} {d : Nat}
    (hd : s.decodeAtPc = .ok i rest) (h : RaisesFault i s c d) : (s.raiseRecord c d).FollowsTable := by
  obtain ⟨hwf, hop, hend⟩ := decodeAtPc_ok hd
  have hopcode {o : Op} (ho : i.op = o) : s.opcodeAtPc = opcodeByte o := ho ▸ hop
  obtain ⟨-, r, hr, h7, -⟩ | ⟨rfl, hcall, hpc, rfl⟩ | ⟨rfl, hi, -, rfl⟩ | ⟨rfl, hi, rfl⟩ := h
  · exact absurd (le_seven_of_wellFormed hwf hr) (by omega)
  · have hpc254 : s.pc.toNat = 254 := by
      rw [Instr.length, hcall] at hend
      simp only [Op.length, Op.format, Format.operandCount] at hend
      omega
    exact ⟨by simp [State.raiseRecord, hpc254], BitVec.eq_of_toNat_eq hpc254, hopcode hcall⟩
  · exact .inl ⟨rfl, hi.imp hopcode hopcode⟩
  · exact .inr ⟨rfl, hi.imp hopcode hopcode⟩

/-! ### A step either completes an instruction or enters Faulted -/

/-- A step completes an instruction, or it raises a fault whose record follows the table of R201. -/
theorem step_completes_or_raises {s t : State} (h : step s = .next t) :
    (∃ i, Completes i s t) ∨
      ∃ c d, t = s.raise c d ∧ (s.pc.toNat ≤ 256 → (s.raiseRecord c d).FollowsTable) := by
  obtain ⟨-, ⟨i, rest, hd, hx⟩ | ⟨k, hd, rfl⟩ | ⟨b, hd, rfl⟩ | ⟨r, hd, rfl⟩⟩ := step_next_cases h
  · obtain hc | ⟨c, d, rfl, hf⟩ := exec_next_cases hx
    · exact .inl ⟨i, hc⟩
    · exact .inr ⟨c, d, rfl, fun _ => raisesFault_followsTable hd hf⟩
  · exact .inr ⟨_, _, rfl, fun hpc => fetchRange_followsTable hpc hd⟩
  · exact .inr ⟨_, _, rfl, fun _ => unknownOpcode_followsTable hd⟩
  · exact .inr ⟨_, _, rfl, fun _ => badRegister_followsTable hd⟩

/-- An instruction that completes leaves the fault record; only HALT moves the lifecycle state and only COMPARE the
flag (R30, R33, R35). -/
theorem completes_frame {i : Instr} {s t : State} (h : Completes i s t) :
    t.fault = s.fault ∧ t.life = (if i.op = .halt then .halted else s.life) ∧ (t.flag = s.flag ∨ i.op = .compare) := by
  cases i with
  | halt => subst h; exact ⟨rfl, rfl, .inl rfl⟩
  | compare => obtain ⟨_, _, -, -, rfl⟩ := h; exact ⟨rfl, rfl, .inr rfl⟩
  | loadImmediate | printReg | jump => obtain ⟨_, -, rfl⟩ := h; exact ⟨rfl, rfl, .inl rfl⟩
  | add | mul => obtain ⟨_, _, -, -, rfl⟩ := h; exact ⟨rfl, rfl, .inl rfl⟩
  | push | pop => obtain ⟨_, -, -, rfl⟩ := h; exact ⟨rfl, rfl, .inl rfl⟩
  | call => obtain ⟨_, -, -, -, rfl⟩ := h; exact ⟨rfl, rfl, .inl rfl⟩
  | ret => obtain ⟨-, rfl⟩ := h; exact ⟨rfl, rfl, .inl rfl⟩
  | jumpIfEqual | jumpIfNotEqual => obtain ⟨_, -, ⟨-, rfl⟩ | ⟨-, rfl⟩⟩ := h <;> exact ⟨rfl, rfl, .inl rfl⟩

/-- An instruction that completes in a running block does not leave it Faulted. -/
theorem completes_life_ne_faulted {i : Instr} {s t : State} (hs : s.life = .running) (h : Completes i s t) :
    t.life ≠ .faulted := by
  obtain ⟨-, hlife, -⟩ := completes_frame h
  rw [hlife, hs]
  split <;> decide

/-! ### The fault ports -/

theorem Cause.code_range (c : Cause) : 1 ≤ c.code.toNat ∧ c.code.toNat ≤ 5 := by
  cases c <;> decide

/-- Without a record all four fault ports read 0 (R35). -/
theorem fault_ports_of_none {s : State} (h : s.fault = none) :
    s.faultCause = 0 ∧ s.faultPc = 0 ∧ s.faultOpcode = 0 ∧ s.faultDetail = 0 := by
  simp [State.faultCause, State.faultPc, State.faultOpcode, State.faultDetail, h]

/-- With a record the four fault ports read it (R35). -/
theorem fault_ports_of_some {s : State} {r : FaultRecord} (h : s.fault = some r) :
    s.faultCause = r.cause.code ∧ s.faultPc = r.fpc ∧ s.faultOpcode = r.fopc ∧ s.faultDetail = r.detail := by
  simp [State.faultCause, State.faultPc, State.faultOpcode, State.faultDetail, h]

/-- Under the invariant a block that is not Faulted holds no record (R41). -/
theorem State.Inv.fault_eq_none {s : State} (hinv : s.Inv) (h : s.life ≠ .faulted) : s.fault = none := by
  rw [← Option.not_isSome_iff_eq_none, hinv.record_iff_faulted]
  exact h

/-- Under the invariant a Faulted block holds a record (R41). -/
theorem State.Inv.exists_fault {s : State} (hinv : s.Inv) (h : s.life = .faulted) : ∃ r, s.fault = some r :=
  Option.isSome_iff_exists.mp (hinv.record_iff_faulted.mpr h)

/-- A step that does not enter Faulted leaves the fault record (R35). -/
theorem step_keeps_fault {s t : State} (h : step s = .next t) (ht : t.life ≠ .faulted) : t.fault = s.fault := by
  obtain ⟨i, hc⟩ | ⟨c, d, rfl, -⟩ := step_completes_or_raises h
  · exact (completes_frame hc).1
  · exact absurd rfl ht

/-- A step that enters Faulted leaves a record that follows the table of R201. -/
theorem step_faulted_record {s t : State} (hpc : s.pc.toNat ≤ 256) (h : step s = .next t) (ht : t.life = .faulted) :
    ∃ r, t.fault = some r ∧ r.FollowsTable := by
  obtain ⟨i, hc⟩ | ⟨c, d, rfl, hf⟩ := step_completes_or_raises h
  · obtain ⟨hrun, -⟩ := step_next_cases h
    exact absurd ht (completes_life_ne_faulted hrun hc)
  · exact ⟨_, raise_fault_eq_raiseRecord s c d, hf hpc⟩

/-- Settles O30: without a record the ports read 0, and only fault entry fills one, by the table of R201. -/
theorem faultPortsReadZeroUnlessFaulted : Obligations.FaultPortsReadZeroUnlessFaulted := by
  refine ⟨fun s hinv hl => fault_ports_of_none (hinv.fault_eq_none hl), ?_, fun s t => step_keeps_fault, ?_,
    fault_ports_of_none rfl⟩
  · intro s hinv hl
    obtain ⟨r, hr⟩ := hinv.exists_fault hl
    obtain ⟨hcause, hpc, hop, -⟩ := fault_ports_of_some hr
    obtain ⟨hfpc, hfopc⟩ := hinv.record_here r hr
    obtain ⟨hlo, hhi⟩ := r.cause.code_range
    exact ⟨hcause ▸ hlo, hcause ▸ hhi, hpc.trans hfpc, hop.trans hfopc⟩
  · intro s t hinv h ht
    obtain ⟨r, hr, htable⟩ := step_faulted_record hinv.pc_le h ht
    obtain ⟨hcause, -, -, hdetail⟩ := fault_ports_of_some hr
    exact ⟨r, hr, htable, hcause, hdetail⟩

/-! ### The exit status -/

/-- The exit status depends on the lifecycle state alone (R38). -/
theorem exitStatus_eq_ite (s : State) : s.exitStatus = if s.life = .faulted then 1 else 0 := by
  cases h : s.life <;> simp [State.exitStatus, h]

/-- Settles O31, in every state and so after a step. -/
theorem exitStatusTellsHowTheRunEnded : Obligations.ExitStatusTellsHowTheRunEnded := by
  refine ⟨exitStatus_eq_ite, fun s t _ => ?_⟩
  rw [exitStatus_eq_ite]
  by_cases ht : t.life = .faulted <;> simp [ht]

/-! ### The flag -/

/-- An answer with an update made to its next state, if it has one. -/
def mapNext (g : State → State) : Host.Outcome State Fault Refusal → Host.Outcome State Fault Refusal
  | .next t => .next (g t)
  | .fault r => .fault r
  | .refused r => .refused r

@[simp] theorem sp_setFlag (s : State) (f : Flag) : (s.setFlag f).sp = s.sp := rfl

theorem setReg_setFlag (s : State) (f : Flag) (r : Reg) (v : Byte) :
    (s.setFlag f).setReg r v = (s.setReg r v).setFlag f := rfl

theorem decSp_setFlag (s : State) (f : Flag) : (s.setFlag f).decSp = s.decSp.map (·.setFlag f) := by
  obtain ⟨h, hd⟩ | ⟨h, hd⟩ := decSp_cases s
  · rw [hd, decSp_of_zero (s := s.setFlag f) h]; rfl
  · rw [hd, decSp_of_pos (s := s.setFlag f) h]; rfl

theorem incSp_setFlag (s : State) (f : Flag) : (s.setFlag f).incSp = s.incSp.map (·.setFlag f) := by
  obtain ⟨h, hd⟩ | ⟨h, hd⟩ := incSp_cases s
  · rw [hd, incSp_of_top (s := s.setFlag f) h]; rfl
  · rw [hd, incSp_of_lt (s := s.setFlag f) h]; rfl

/-- If what follows the operand answers the same up to the flag, so does the whole: BadRegister keeps the flag. -/
theorem withReg_setFlag {k k' : Reg → Host.Outcome State Fault Refusal} {f : Flag} (b : Byte) (s : State)
    (hk : ∀ r, k' r = mapNext (·.setFlag f) (k r)) :
    withReg b (s.setFlag f) k' = mapNext (·.setFlag f) (withReg b s k) := by
  unfold withReg
  cases regOfByte b with
  | none => rfl
  | some r => exact hk r

/-- The flag is not read: with another flag before, every instruction but COMPARE and the conditional jumps answers
the same, up to that flag (R30). -/
theorem exec_setFlag {i : Instr} (hc : i.op ≠ .compare) (he : i.op ≠ .jumpIfEqual) (hne : i.op ≠ .jumpIfNotEqual)
    (s : State) (f : Flag) : exec i (s.setFlag f) = mapNext (·.setFlag f) (exec i s) := by
  cases i with
  | compare => exact absurd rfl hc
  | jumpIfEqual => exact absurd rfl he
  | jumpIfNotEqual => exact absurd rfl hne
  | halt => rfl
  | loadImmediate | printReg | jump => exact withReg_setFlag _ s fun _ => rfl
  | add | mul => exact withReg_setFlag _ s fun _ => withReg_setFlag _ s fun _ => rfl
  | push =>
    refine withReg_setFlag _ s fun r => ?_
    rw [decSp_setFlag]
    cases s.decSp <;> rfl
  | pop =>
    refine withReg_setFlag _ s fun r => ?_
    rw [readByte_setFlag, sp_setFlag, setReg_setFlag, incSp_setFlag]
    cases (s.setReg r (s.readByte s.sp)).incSp <;> rfl
  | call =>
    refine withReg_setFlag _ s fun r => ?_
    rw [setFlag_pc, decSp_setFlag]
    by_cases hp : 255 < s.pc.toNat + 2
    · simp only [if_pos hp]; rfl
    · simp only [if_neg hp]
      cases s.decSp <;> rfl
  | ret =>
    simp only [exec, execRet, incSp_setFlag]
    cases s.incSp <;> rfl

/-- COMPARE replaces the flag whatever it held (R104). -/
theorem exec_compare_setFlag (a b : Reg) (s : State) (f : Flag) :
    exec (.compare (byteOfReg a) (byteOfReg b)) (s.setFlag f) = exec (.compare (byteOfReg a) (byteOfReg b)) s := by
  rw [exec_compare, exec_compare]
  rfl

/-- Only COMPARE writes the flag; a fault leaves it (R30, R202). -/
theorem exec_flag {i : Instr} {s t : State} (h : exec i s = .next t) : t.flag = s.flag ∨ i.op = .compare := by
  obtain hc | ⟨c, d, rfl, -⟩ := exec_next_cases h
  · obtain ⟨-, -, hflag⟩ := completes_frame hc
    exact hflag
  · exact .inl rfl

/-- Settles O32: by what an instruction can do for the writes, and by `exec_setFlag` for the reads. -/
theorem onlyCompareWritesAndOnlyJumpsReadFlag : Obligations.OnlyCompareWritesAndOnlyJumpsReadFlag := by
  refine ⟨fun i s t => exec_flag, exec_compare_setFlag, fun i s t f hc he hne h => ?_⟩
  rw [exec_setFlag hc he hne, h]
  rfl

end Sys2Proof.Machine
end

section
/-! The decoder on the bytes it is given, as equations; then the encoding family's statements about the opcode bytes,
the instruction fetch and the decoder's faults. -/

namespace Sys2Proof

/-! ### The decoder on an opcode byte and what follows it -/

/-- A known opcode byte leaves the answer to the operand stage (R80). -/
theorem decode_opcodeByte_cons (o : Op) (operands : List Byte) :
    decode (opcodeByte o :: operands) = decodeOperands o operands := by
  simp only [decode, decodeWith_cons, opOfByte_opcodeByte]

/-- An opcode byte outside the map is refused whatever follows it (R77). -/
theorem decode_of_unknown {b : Byte} (hb : ∀ o, opcodeByte o ≠ b) (rest : List Byte) :
    decode (b :: rest) = .unknownOpcode b := by
  simp only [decode, decodeWith_cons, opOfByte_eq_none.mpr hb]

/-- A well-formed instruction is decoded from its bytes, and the bytes after it are left (R75). -/
theorem decode_encode_append {i : Instr} (h : i.wellFormed = true) (rest : List Byte) :
    decode (encode i ++ rest) = .ok i rest := by
  rw [encode, encodeWith, List.cons_append, decode_opcodeByte_cons, decodeOperands_append]
  simp only [firstBadRegister_eq_none.mpr h]

/-- An instruction with a bad register is refused with the first one, whatever follows its bytes (R78). -/
theorem decode_encode_append_of_bad {i : Instr} {r : Byte} (h : i.firstBadRegister = some r) (rest : List Byte) :
    decode (encode i ++ rest) = .badRegister r := by
  rw [encode, encodeWith, List.cons_append, decode_opcodeByte_cons, decodeOperands_append]
  simp only [h]

/-- From its own encoding the decoder answers an instruction only if it is well formed. -/
theorem wellFormed_of_decode_encode {i : Instr} {rest rest' : List Byte}
    (h : decode (encode i ++ rest) = .ok i rest') : i.wellFormed = true := by
  rw [← firstBadRegister_eq_none]
  cases hb : i.firstBadRegister with
  | none => rfl
  | some r => cases (decode_encode_append_of_bad hb rest).symm.trans h

/-- The first operand above 7, after operands that name registers, is the one the decoder's check finds (R78). -/
theorem firstBadRegister_of_append {i : Instr} {before after : List Byte} {r : Byte}
    (hi : i.regOperands = before ++ r :: after) (hbefore : ∀ q ∈ before, q.toNat ≤ 7) (hr : 7 < r.toNat) :
    i.firstBadRegister = some r := by
  rw [Instr.firstBadRegister, List.find?_eq_some_iff_append]
  exact ⟨decide_eq_true hr, before, after, hi, fun q hq => by simpa using hbefore q hq⟩

/-! ### The opcode bytes -/

theorem Op.nodup_all : Op.all.Nodup := by decide

/-- A byte value the lookup finds is the opcode byte of some operation. -/
theorem opOfByte_isSome_iff (m : OpcodeMap) (b : Byte) : (opOfByte m b).isSome = true ↔ ∃ o, m o = b := by
  rw [← Option.ne_none_iff_isSome, ne_eq, opOfByte_eq_none]
  simp only [ne_eq, not_forall, not_not]

/-- Under an injective map the legal byte values are the thirteen opcode bytes, each once (R72). -/
theorem legalBytes_perm {m : OpcodeMap} (hm : m.Injective) :
    ((List.range 256).filter (fun n => (opOfByte m (BitVec.ofNat 8 n)).isSome)).Perm
      (Op.all.map (fun o => (m o).toNat)) := by
  have hinj : Function.Injective (fun o => (m o).toNat) := fun o o' h => hm o o' (BitVec.eq_of_toNat_eq h)
  refine (List.perm_ext_iff_of_nodup (List.nodup_range.filter _) (Op.nodup_all.map hinj)).mpr fun n => ?_
  rw [List.mem_filter, List.mem_range, opOfByte_isSome_iff, List.mem_map]
  constructor
  · rintro ⟨hn, o, ho⟩
    exact ⟨o, o.mem_all, by simp only [ho, BitVec.toNat_ofNat]; omega⟩
  · rintro ⟨o, -, rfl⟩
    exact ⟨(m o).isLt, o, (BitVec.ofNat_toNat 8 (m o)).symm⟩

/-- Under an injective map 243 of the 256 byte values are illegal (R77). -/
theorem length_illegalBytes {m : OpcodeMap} (hm : m.Injective) :
    ((List.range 256).filter (fun n => (opOfByte m (BitVec.ofNat 8 n)).isNone)).length = 243 := by
  have hlegal := (legalBytes_perm hm).length_eq
  have hsum := List.length_eq_length_filter_add (l := List.range 256)
    (fun n => (opOfByte m (BitVec.ofNat 8 n)).isSome)
  simp only [Option.not_isSome, List.length_range, List.length_map] at hsum hlegal
  have hall : Op.all.length = 13 := rfl
  omega

end Sys2Proof

namespace Sys2Proof.Machine

/-! ### What stands at `pc`, and what the decoder and the fetch make of it -/

/-- The encoding of an instruction at `pc` leads the bytes the decoder is given. -/
theorem fetchBytes_of_encode {s : State} {i : Instr} (h : s.InstructionAt (encode i)) :
    ∃ rest, s.fetchBytes = encode i ++ rest :=
  instructionAt_fetchBytes h (by rw [length_encode]; exact length_le_three i)

/-- One byte at `pc` is the first the decoder is given. -/
theorem fetchBytes_of_opcode {s : State} {b : Byte} (h : s.InstructionAt [b]) : ∃ rest, s.fetchBytes = b :: rest :=
  instructionAt_fetchBytes h (by simp)

/-- The decoder reads as many bytes as the instruction at `pc` is long (R75). -/
theorem fetchCount_of_encode {s : State} {i : Instr} (h : s.InstructionAt (encode i)) : s.fetchCount = i.length := by
  obtain ⟨rest, hf⟩ := fetchBytes_of_encode h
  rw [encode, encodeWith, List.cons_append] at hf
  simp only [State.fetchCount, hf, opOfByte_opcodeByte, Instr.length, Op.length, List.length_append,
    length_operandBytes, Nat.min_eq_left (Nat.le_add_right _ _)]

/-- Settles O17: by decoding of encodings for the answer, and by the count of bytes fetched for the reads. -/
theorem decoderReadsExactlyTheInstruction : Obligations.DecoderReadsExactlyTheInstruction := by
  refine ⟨fun i rest rest' h => decode_encode_append (wellFormed_of_decode_encode h) rest', fun s i h => ?_⟩
  rw [State.fetchEvents, fetchCount_of_encode h]

/-- At `pc` above 255 the opcode byte itself is missing (R76). -/
theorem decodeAtPc_of_gt {s : State} (h : 255 < s.pc.toNat) : s.decodeAtPc = .truncated 0 := by
  rw [State.decodeAtPc, fetchBytes_of_gt h]
  rfl

/-- An instruction that would end above address 255 misses its byte at address 256 (R76). -/
theorem decodeAtPc_of_end_gt {s : State} {o : Op} (h : s.InstructionAt [opcodeByte o])
    (hend : 256 < s.pc.toNat + o.length) : s.decodeAtPc = .truncated (256 - s.pc.toNat) := by
  obtain ⟨operands, hf⟩ := fetchBytes_of_opcode h
  have hlen := length_fetchBytes s
  have hcount := operandCount_le_two o
  rw [Op.length] at hend
  rw [hf, List.length_cons] at hlen
  have hshort : operands.length < o.format.operandCount := by omega
  rw [State.decodeAtPc, hf, decode_opcodeByte_cons, decodeOperands_of_short hshort]
  congr 1
  omega

/-- Settles O19: the decoder reports the offset of the missing byte, and the step adds `pc` to it. -/
theorem fetchAbove255Faults : Obligations.FetchAbove255Faults := by
  refine ⟨fun s hl hpc => step_of_truncated hl (decodeAtPc_of_gt hpc), fun s o h hend => ?_⟩
  have hpc : s.pc.toNat + 1 ≤ 256 := instructionAt_end_le h (List.cons_ne_nil _ _)
  have haddr : s.pc.toNat + (256 - s.pc.toNat) = 256 := by omega
  rw [step_of_truncated h.1 (decodeAtPc_of_end_gt h hend), haddr]

/-- Settles O20: the lookup fails on the byte, and its failures are counted by injectivity of the opcode map. -/
theorem illegalOpcodesFault : Obligations.IllegalOpcodesFault := by
  refine ⟨fun s b h hb => ?_, length_illegalBytes opcodeByte_injective, by decide⟩
  obtain ⟨rest, hf⟩ := fetchBytes_of_opcode h
  exact step_of_unknownOpcode h.1 (by rw [State.decodeAtPc, hf, decode_of_unknown hb])

/-- Settles O21: the decoder's check finds the first bad operand, and there is none in a LOAD_IMMEDIATE whose
destination is a register. -/
theorem badRegisterIsCheckedFirst : Obligations.BadRegisterIsCheckedFirst := by
  refine ⟨fun s i before after r hi hbefore hr h => ?_, fun r v => ?_⟩
  · obtain ⟨rest, hf⟩ := fetchBytes_of_encode h
    have hbad := firstBadRegister_of_append hi hbefore hr
    exact step_of_badRegister h.1 (by rw [State.decodeAtPc, hf, decode_encode_append_of_bad hbad])
  · have hwf : (Instr.loadImmediate (byteOfReg r) v).wellFormed = true := decide_eq_true (byteOfReg_le r)
    exact decode_encode_append hwf []

/-! ### There is a next state exactly when the block is Running -/

/-- Every meaning answers a next state: it completes or it enters Faulted. -/
theorem exists_exec_eq_next (i : Instr) (s : State) : ∃ t, exec i s = .next t := by
  obtain ⟨t, h, -⟩ | ⟨c, d, h, -⟩ := exec_answers i s
  · exact ⟨t, h⟩
  · exact ⟨s.raise c d, h⟩

/-- A running block has a step, whatever the decoder answers (R80). -/
theorem exists_step_eq_next {s : State} (hl : s.life = .running) : ∃ t, step s = .next t := by
  cases hd : s.decodeAtPc with
  | ok i rest => exact step_of_ok hl hd ▸ exists_exec_eq_next i s
  | truncated k => exact ⟨_, step_of_truncated hl hd⟩
  | unknownOpcode b => exact ⟨_, step_of_unknownOpcode hl hd⟩
  | badRegister r => exact ⟨_, step_of_badRegister hl hd⟩

/-- Settles O25: a next state comes only from a running block, and every running block has one. -/
theorem onlyTerminalStatesHaveNoStep : Obligations.OnlyTerminalStatesHaveNoStep :=
  fun _ => ⟨fun ⟨_, h⟩ => (step_next_cases h).1, exists_step_eq_next⟩

/-! ### The fields of the opcode bytes (R73) -/

/-- Settles O18: the fields of each operation's byte by cases, and the low bits apart because the two halves of a byte
determine it and the map is injective. -/
theorem opcodeBytesHaveTheirFields : Obligations.OpcodeBytesHaveTheirFields := by
  refine ⟨fun o => by cases o <;> rfl, fun o => by cases o <;> decide, fun o => by cases o <;> decide,
    fun o o' hhigh hlow => opcodeByte_injective o o' (BitVec.eq_of_toNat_eq ?_), by decide⟩
  rw [← Nat.div_add_mod (opcodeByte o).toNat 16, hhigh, hlow, Nat.div_add_mod]

end Sys2Proof.Machine
end

section
/-! What a three-byte instruction with two register operands runs as and how it faults, and the frame of a register
write; then the ALU family's statements (spec/40_alu.md). -/

namespace Sys2Proof

/-- An instruction whose register operands all name registers is well formed: the converse of
`le_seven_of_wellFormed` (R78). -/
theorem wellFormed_of_regOperands_le {i : Instr} (h : ∀ r ∈ i.regOperands, r.toNat ≤ 7) : i.wellFormed = true := by
  rw [← firstBadRegister_eq_none, Instr.firstBadRegister, List.find?_eq_none]
  exact fun r hr => by simpa using h r hr

/-! ### Format RR (R71) -/

theorem encode_build_of_rr {o : Op} (ho : o.format = .rr) (a b : Byte) :
    encode (o.build a b) = [opcodeByte o, a, b] := by
  cases o <;> cases ho <;> rfl

theorem regOperands_build_of_rr {o : Op} (ho : o.format = .rr) (a b : Byte) :
    (o.build a b).regOperands = [a, b] := by
  cases o <;> cases ho <;> rfl

theorem length_of_rr {o : Op} (ho : o.format = .rr) : o.length = 3 := by rw [Op.length, ho]; rfl

end Sys2Proof

namespace Sys2Proof.Machine

/-! ### What the bytes of an instruction run as -/

/-- Wherever the bytes of a well-formed instruction stand at `pc`, a step is its meaning (R80). -/
theorem runsAs_encode {i : Instr} (hi : i.wellFormed = true) : RunsAs (encode i) i := by
  intro s h
  obtain ⟨rest, hf⟩ := fetchBytes_of_encode h
  exact step_of_ok h.1 (by rw [State.decodeAtPc, hf, decode_encode_append hi])

/-- The bytes of an RR instruction on two registers run it. -/
theorem runsAs_of_rr {o : Op} (ho : o.format = .rr) (a b : Reg) :
    RunsAs [opcodeByte o, byteOfReg a, byteOfReg b] (o.build (byteOfReg a) (byteOfReg b)) := by
  rw [← encode_build_of_rr ho]
  apply runsAs_encode
  apply wellFormed_of_regOperands_le
  simp [regOperands_build_of_rr ho, byteOfReg_le]

/-- An RR instruction has the decoder faults of its three bytes: the general statements about instruction fetch (R76)
and register operands (R78), at this format. -/
theorem twoRegisterFaults_of_rr {o : Op} (ho : o.format = .rr) : TwoRegisterFaults (opcodeByte o) := by
  obtain ⟨-, fetchRange⟩ := fetchAbove255Faults
  obtain ⟨badRegister, -⟩ := badRegisterIsCheckedFirst
  refine ⟨fun s h hpc => ?_, fun s a b h ha => ?_, fun s a b h ha hb => ?_⟩
  · exact fetchRange s o h (by rw [length_of_rr ho]; omega)
  · exact badRegister s (o.build a b) [] [b] a (regOperands_build_of_rr ho a b) (by simp) ha
      (by rwa [encode_build_of_rr ho])
  · exact badRegister s (o.build a b) [a] [] b (regOperands_build_of_rr ho a b) (by simpa using ha) hb
      (by rwa [encode_build_of_rr ho])

/-! ### The ALU's results -/

@[simp] theorem toNat_aluAdd (a b : Byte) : (aluAdd a b).toNat = (a.toNat + b.toNat) % 256 :=
  Nat.mod_mod _ 256

@[simp] theorem toNat_aluMul (a b : Byte) : (aluMul a b).toNat = (a.toNat * b.toNat) % 256 :=
  Nat.mod_mod _ 256

/-- COMPARE's flag is the one of EQ, LT and GT that holds of its operands (R104). -/
theorem compareFlag_iff (a b : Byte) :
    (compareFlag a b = .eq ↔ a.toNat = b.toNat) ∧ (compareFlag a b = .lt ↔ a.toNat < b.toNat) ∧
      (compareFlag a b = .gt ↔ b.toNat < a.toNat) := by
  unfold compareFlag
  obtain h | h | h := Nat.lt_trichotomy a.toNat b.toNat
  · simp [h, h.ne, h.not_gt]
  · simp [h]
  · simp [h, h.ne', h.not_gt]

/-! ### Frames -/

/-- Writing a register and moving on changes that register and `pc` alone. -/
theorem setReg_advance_frame (s : State) (r : Reg) (v : Byte) (n : Nat) :
    let t := (s.setReg r v).advance n
    t.reg r = v ∧ SameRegsBut [r] s t ∧ t.pc = s.pc + BitVec.ofNat 9 n ∧ t.flag = s.flag ∧ t.out = s.out ∧
      SameStatus s t ∧ SameCells s t := by
  refine ⟨by simp, fun q hq => ?_, rfl, rfl, rfl, ⟨rfl, rfl⟩, fun _ => rfl⟩
  simp [List.mem_singleton.not.mp hq]

/-- Writing the flag and moving on changes the flag and `pc` alone. -/
theorem setFlag_advance_frame (s : State) (f : Flag) (n : Nat) :
    let t := (s.setFlag f).advance n
    SameRegsBut [] s t ∧ t.pc = s.pc + BitVec.ofNat 9 n ∧ t.out = s.out ∧ SameStatus s t ∧ SameCells s t :=
  ⟨fun _ _ => rfl, rfl, rfl, ⟨rfl, rfl⟩, fun _ => rfl⟩

/-! ### ADD, MUL and COMPARE -/

/-- Settles O1: the register written holds the ALU's sum, and the rest is the frame of a register write. -/
theorem addSumsModulo256 : Obligations.AddSumsModulo256 := by
  refine ⟨fun a b s => ?_, runsAs_of_rr (o := .add) rfl, twoRegisterFaults_of_rr (o := .add) rfl⟩
  obtain ⟨hreg, hframe⟩ := setReg_advance_frame s a (aluAdd (s.reg a) (s.reg b)) 3
  exact ⟨_, exec_add a b s, by rw [hreg, toNat_aluAdd], hframe⟩

/-- Settles O2: the register written holds the ALU's product, and the rest is the frame of a register write. -/
theorem mulKeepsLowByteOfProduct : Obligations.MulKeepsLowByteOfProduct := by
  refine ⟨fun a b s => ?_, runsAs_of_rr (o := .mul) rfl, twoRegisterFaults_of_rr (o := .mul) rfl⟩
  obtain ⟨hreg, hframe⟩ := setReg_advance_frame s a (aluMul (s.reg a) (s.reg b)) 3
  exact ⟨_, exec_mul a b s, by rw [hreg, toNat_aluMul], hframe⟩

/-- Settles O3: the flag written is COMPARE's, and the rest is the frame of a flag write. -/
theorem compareSetsFlagByUnsignedOrder : Obligations.CompareSetsFlagByUnsignedOrder := by
  refine ⟨fun a b s => ?_, runsAs_of_rr (o := .compare) rfl, twoRegisterFaults_of_rr (o := .compare) rfl⟩
  obtain ⟨heq, hlt, hgt⟩ := compareFlag_iff (s.reg a) (s.reg b)
  exact ⟨_, exec_compare a b s, heq, hlt, hgt, setFlag_advance_frame s _ 3⟩

end Sys2Proof.Machine
end

section
/-! What a two-byte instruction with one register operand runs as and how it faults, and what a step that enters Faulted
leaves; then the control family's statements (spec/41_control.md). -/

namespace Sys2Proof

/-! ### Format R (R71) -/

theorem encode_build_of_r {o : Op} (ho : o.format = .r) (a b : Byte) : encode (o.build a b) = [opcodeByte o, a] := by
  cases o <;> cases ho <;> rfl

theorem regOperands_build_of_r {o : Op} (ho : o.format = .r) (a b : Byte) : (o.build a b).regOperands = [a] := by
  cases o <;> cases ho <;> rfl

theorem length_of_r {o : Op} (ho : o.format = .r) : o.length = 2 := by rw [Op.length, ho]; rfl

end Sys2Proof

namespace Sys2Proof.Machine

/-! ### What the bytes of an instruction run as -/

/-- The bytes of an R instruction on a register run it. -/
theorem runsAs_of_r {o : Op} (ho : o.format = .r) (r : Reg) :
    RunsAs [opcodeByte o, byteOfReg r] (o.build (byteOfReg r) 0) := by
  rw [← encode_build_of_r ho _ 0]
  apply runsAs_encode
  apply wellFormed_of_regOperands_le
  simp [regOperands_build_of_r ho, byteOfReg_le]

/-- An R instruction has the decoder faults of its two bytes: the general statements about instruction fetch (R76) and
register operands (R78), at this format. -/
theorem oneRegisterFaults_of_r {o : Op} (ho : o.format = .r) : OneRegisterFaults (opcodeByte o) := by
  obtain ⟨-, fetchRange⟩ := fetchAbove255Faults
  obtain ⟨badRegister, -⟩ := badRegisterIsCheckedFirst
  refine ⟨fun s h hpc => ?_, fun s r h hr => ?_⟩
  · exact fetchRange s o h (by rw [length_of_r ho]; omega)
  · exact badRegister s (o.build r 0) [] [] r (regOperands_build_of_r ho r 0) (by simp) hr
      (by rwa [encode_build_of_r ho])

/-! ### Frames and ends -/

/-- Emitting a value and moving on changes the output list and `pc` alone. -/
theorem emit_advance_frame (s : State) (v : Byte) (n : Nat) :
    let t := (s.emit v).advance n
    t.out = s.out ++ [v] ∧ SameRegsBut [] s t ∧ t.pc = s.pc + BitVec.ofNat 9 n ∧ t.flag = s.flag ∧
      SameStatus s t ∧ SameCells s t :=
  ⟨rfl, fun _ _ => rfl, rfl, rfl, ⟨rfl, rfl⟩, fun _ => rfl⟩

/-- A step that enters Faulted is a fault entry from the state before it (R202). -/
theorem step_faulted_eq_raise {s t : State} (h : step s = .next t) (ht : t.life = .faulted) :
    ∃ c d, t = s.raise c d := by
  obtain ⟨i, hc⟩ | ⟨c, d, hraise, -⟩ := step_completes_or_raises h
  · obtain ⟨hrun, -⟩ := step_next_cases h
    exact absurd ht (completes_life_ne_faulted hrun hc)
  · exact ⟨c, d, hraise⟩

/-- A step that enters Faulted emits nothing (R8). -/
theorem step_faulted_out {s t : State} (h : step s = .next t) (ht : t.life = .faulted) : t.out = s.out := by
  obtain ⟨c, d, rfl⟩ := step_faulted_eq_raise h ht
  rfl

/-- A terminal block has no step (R81). -/
theorem step_ne_next_of_terminal {s : State} (h : s.Terminal) (t : State) : step s ≠ .next t :=
  fun hstep => h (step_next_cases hstep).1

/-! ### LOAD_IMMEDIATE, PRINT_REG and HALT -/

/-- The bytes of LOAD_IMMEDIATE on a register run it, whatever its immediate. -/
theorem runsAs_loadImmediate (r : Reg) (v : Byte) :
    RunsAs [0x82, byteOfReg r, v] (.loadImmediate (byteOfReg r) v) := by
  have hwf : (Instr.loadImmediate (byteOfReg r) v).wellFormed = true := decide_eq_true (byteOfReg_le r)
  exact runsAs_encode hwf

/-- Settles O5: the frame of a register write, and the general statements about instruction fetch and register
operands at the three bytes of LOAD_IMMEDIATE. -/
theorem loadImmediateWritesConstant : Obligations.LoadImmediateWritesConstant := by
  obtain ⟨-, fetchRange⟩ := fetchAbove255Faults
  obtain ⟨badRegister, -⟩ := badRegisterIsCheckedFirst
  refine ⟨fun r v s => ⟨_, exec_loadImmediate r v s, setReg_advance_frame s r v 3⟩, runsAs_loadImmediate,
    fun s h hpc => ?_, fun s r v h hr => ?_⟩
  · have hlen : Op.loadImmediate.length = 3 := rfl
    exact fetchRange s .loadImmediate h (by omega)
  · exact badRegister s (.loadImmediate r v) [] [] r rfl (by simp) hr h

/-- Settles O6: the frame of an emission, format R for the bytes and the decoder's faults, and no emission because a
fault is entered from the state before the instruction. -/
theorem printRegAppendsToOutput : Obligations.PrintRegAppendsToOutput :=
  ⟨fun r s => ⟨_, exec_printReg r s, emit_advance_frame s (s.reg r) 2⟩,
    runsAs_of_r (o := .printReg) rfl, oneRegisterFaults_of_r (o := .printReg) rfl,
    fun _ _ _ => step_faulted_out⟩

/-- Settles O4: the state HALT answers is Halted, so it has no step; its byte runs it as every encoding does. -/
theorem haltStopsTheBlock : Obligations.HaltStopsTheBlock := by
  refine ⟨fun s => ?_, runsAs_encode (i := .halt) rfl⟩
  have hterminal : (s.advance 1).halt.Terminal := by simp [State.Terminal]
  exact ⟨_, exec_halt s, rfl, rfl, fun _ _ => rfl, rfl, rfl, rfl, fun _ => rfl, rfl,
    step_ne_next_of_terminal hterminal⟩

end Sys2Proof.Machine
end

section
/-! The frames of a store below the stack pointer and of a register write followed by a move of SP, and POP on R7 and on
the other registers; then the stack family's statements (spec/42_stack.md). -/

namespace Sys2Proof.Machine

/-! ### The stack pointer -/

/-- An increment that is not out of range is exact (R142). -/
theorem toNat_ofNat_succ {v : Byte} (h : v.toNat ≠ 255) : (BitVec.ofNat 8 (v.toNat + 1)).toNat = v.toNat + 1 := by
  have := v.isLt
  rw [BitVec.toNat_ofNat]
  omega

/-- A decrement that is not out of range is exact (R142). -/
theorem toNat_pushAddress_succ {s : State} (h : s.sp.toNat ≠ 0) : s.pushAddress.toNat + 1 = s.sp.toNat := by
  rw [toNat_pushAddress]
  omega

theorem sp_setReg_of_ne {r : Reg} (hr : r ≠ Config.spIndex) (s : State) (v : Byte) : (s.setReg r v).sp = s.sp := by
  rw [sp_setReg, if_neg hr.symm]

theorem sp_setReg_spIndex (s : State) (v : Byte) : (s.setReg Config.spIndex v).sp = v := sp_setSp s v

/-- Of two writes to SP the later one counts. -/
theorem setReg_spIndex_setSp (s : State) (v w : Byte) : (s.setReg Config.spIndex v).setSp w = s.setSp w := by
  simp [State.setSp, State.setReg]

/-! ### Frames -/

/-- Moving SP and storing a value changes SP and one cell alone: the store half of PUSH and CALL (R140). -/
theorem setSp_writeByte_frame (s : State) (p a v : Byte) :
    let t := (s.setSp p).writeByte a v
    t.sp = p ∧ SameRegsBut [Config.spIndex] s t ∧ t.readByte a = v ∧ SameCellsBut a s t ∧ t.pc = s.pc ∧
      t.flag = s.flag ∧ t.out = s.out ∧ SameStatus s t := by
  refine ⟨by simp, fun q hq => ?_, by simp, fun b hb => by simp [hb], rfl, rfl, rfl, rfl, rfl⟩
  simp [List.mem_singleton.not.mp hq]

/-- Writing a register other than SP, moving SP and going on changes these two registers and `pc` alone. -/
theorem setReg_setSp_advance_frame {r : Reg} (hr : r ≠ Config.spIndex) (s : State) (v p : Byte) (n : Nat) :
    let t := ((s.setReg r v).setSp p).advance n
    t.reg r = v ∧ t.sp = p ∧ SameRegsBut [r, Config.spIndex] s t ∧ t.pc = s.pc + BitVec.ofNat 9 n ∧
      t.flag = s.flag ∧ t.out = s.out ∧ SameStatus s t ∧ SameCells s t := by
  refine ⟨by simp [hr], by simp, fun q hq => ?_, rfl, rfl, rfl, ⟨rfl, rfl⟩, fun _ => rfl⟩
  obtain ⟨hqr, hqsp⟩ : q ≠ r ∧ q ≠ Config.spIndex := by simpa using hq
  simp [hqr, hqsp]

/-! ### POP on R7 and on the other registers -/

/-- POP of a register other than R7 moves SP up from where it stood (R143). -/
theorem exec_pop_of_ne {r : Reg} {s : State} (hr : r ≠ Config.spIndex) (h : s.sp.toNat ≠ 255) :
    exec (.pop (byteOfReg r)) s =
      .next (((s.setReg r (s.readByte s.sp)).setSp (BitVec.ofNat 8 (s.sp.toNat + 1))).advance 2) := by
  have hsp := sp_setReg_of_ne hr s (s.readByte s.sp)
  rw [exec_pop r (by rwa [hsp]), hsp]

/-- POP R7 moves SP up from the popped value, so it is one write to SP (R143). -/
theorem exec_pop_spIndex {s : State} (h : (s.readByte s.sp).toNat ≠ 255) :
    exec (.pop (byteOfReg Config.spIndex)) s =
      .next ((s.setSp (BitVec.ofNat 8 ((s.readByte s.sp).toNat + 1))).advance 2) := by
  have hsp := sp_setReg_spIndex s (s.readByte s.sp)
  rw [exec_pop Config.spIndex (by rwa [hsp]), hsp, setReg_spIndex_setSp]

/-! ### PUSH and POP -/

/-- Settles O7: the frame of a store below the stack pointer; the register stored is read after SP has moved, which
makes it the decremented SP for R7. -/
theorem pushStoresBelowStackPointer : Obligations.PushStoresBelowStackPointer := by
  refine ⟨fun r s h => ?_, fun r s => exec_push_of_zero r, runsAs_of_r (o := .push) rfl,
    oneRegisterFaults_of_r (o := .push) rfl⟩
  obtain ⟨hsp, hregs, hcell, hcells, hpc, hframe⟩ :=
    setSp_writeByte_frame s s.pushAddress s.pushAddress ((s.setSp s.pushAddress).reg r)
  exact ⟨_, exec_push r h, hsp, toNat_pushAddress_succ h, hregs, hcell.trans (reg_setSp s _ r), hcells,
    congrArg (· + 2) hpc, hframe⟩

/-- Settles O8: POP R7 is one write to SP, POP of another register a write to it and one to SP; in both the frame is
that of the writes, and SP moves from what the register file holds after the first. -/
theorem popReadsThenMovesStackPointer : Obligations.PopReadsThenMovesStackPointer := by
  refine ⟨fun r s hr h => ?_, fun s h => ?_, fun r s hr h => ?_, fun s h => ?_, runsAs_of_r (o := .pop) rfl,
    oneRegisterFaults_of_r (o := .pop) rfl⟩
  · obtain ⟨hreg, hsp, hframe⟩ :=
      setReg_setSp_advance_frame hr s (s.readByte s.sp) (BitVec.ofNat 8 (s.sp.toNat + 1)) 2
    exact ⟨_, exec_pop_of_ne hr h, hreg, by rw [hsp, toNat_ofNat_succ h], hframe⟩
  · obtain ⟨hsp, hframe⟩ :=
      setReg_advance_frame s Config.spIndex (BitVec.ofNat 8 ((s.readByte s.sp).toNat + 1)) 2
    exact ⟨_, exec_pop_spIndex h, (congrArg BitVec.toNat hsp).trans (toNat_ofNat_succ h), hframe⟩
  · exact exec_pop_of_top r (by rwa [sp_setReg_of_ne hr])
  · exact exec_pop_of_top Config.spIndex (by rwa [sp_setReg_spIndex])

end Sys2Proof.Machine
end

section
/-! The frames of a write to `pc`, of a jump after a move of SP, and the conditional jumps on either side of their test;
then the branch family's statements (spec/43_branch.md). -/

namespace Sys2Proof.Machine

/-! ### Frames -/

/-- Writing `pc` changes `pc` alone, be it a jump or a move to the next instruction (R160). -/
theorem pc_frame (s : State) (p : PcWord) :
    let t := { s with pc := p }
    SameRegsBut [] s t ∧ t.flag = s.flag ∧ t.out = s.out ∧ SameStatus s t ∧ SameCells s t :=
  ⟨fun _ _ => rfl, rfl, rfl, ⟨rfl, rfl⟩, fun _ => rfl⟩

/-- Moving SP and jumping changes SP and `pc` alone. -/
theorem setSp_jumpTo_frame (s : State) (p v : Byte) :
    let t := (s.setSp p).jumpTo v
    t.sp = p ∧ SameRegsBut [Config.spIndex] s t ∧ t.flag = s.flag ∧ t.out = s.out ∧ SameStatus s t ∧
      SameCells s t := by
  refine ⟨by simp, fun q hq => ?_, rfl, rfl, ⟨rfl, rfl⟩, fun _ => rfl⟩
  simp [List.mem_singleton.not.mp hq]

/-! ### The conditional jumps on either side of their test (R166) -/

theorem exec_jumpIfEqual_of_eq {s : State} (r : Reg) (h : s.flag = .eq) :
    exec (.jumpIfEqual (byteOfReg r)) s = .next (s.jumpTo (s.reg r)) := by
  rw [exec_jumpIfEqual, if_pos ((isEq_iff _).mpr h)]

theorem exec_jumpIfEqual_of_ne {s : State} (r : Reg) (h : s.flag ≠ .eq) :
    exec (.jumpIfEqual (byteOfReg r)) s = .next (s.advance 2) := by
  rw [exec_jumpIfEqual, if_neg ((isEq_iff _).not.mpr h)]

theorem exec_jumpIfNotEqual_of_eq {s : State} (r : Reg) (h : s.flag = .eq) :
    exec (.jumpIfNotEqual (byteOfReg r)) s = .next (s.advance 2) := by
  rw [exec_jumpIfNotEqual, if_pos ((isEq_iff _).mpr h)]

theorem exec_jumpIfNotEqual_of_ne {s : State} (r : Reg) (h : s.flag ≠ .eq) :
    exec (.jumpIfNotEqual (byteOfReg r)) s = .next (s.jumpTo (s.reg r)) := by
  rw [exec_jumpIfNotEqual, if_neg ((isEq_iff _).not.mpr h)]

/-- The flag's other three states are what JUMP_IF_NOT_EQUAL takes (R169). -/
theorem Flag.ne_eq_iff (f : Flag) : f ≠ .eq ↔ f = .unset ∨ f = .lt ∨ f = .gt := by cases f <;> decide

/-! ### CALL and RETURN -/

/-- Settles O9: the frame of a store below the stack pointer, which the jump leaves alone; the target register is read
after SP has moved, which makes it the decremented SP for R7. The guard on the return address makes the byte stored
exact. -/
theorem callPushesReturnAddressAndJumps : Obligations.CallPushesReturnAddressAndJumps := by
  refine ⟨fun r s hp h => ?_, fun r _ => exec_call_of_returnRange r, fun r _ => exec_call_of_zero r,
    runsAs_of_r (o := .call) rfl, oneRegisterFaults_of_r (o := .call) rfl⟩
  have hexact : (BitVec.ofNat 8 (s.pc.toNat + 2)).toNat = s.pc.toNat + 2 := by
    rw [BitVec.toNat_ofNat]
    omega
  obtain ⟨hsp, hregs, hcell, hcells, -, hframe⟩ :=
    setSp_writeByte_frame s s.pushAddress s.pushAddress (BitVec.ofNat 8 (s.pc.toNat + 2))
  exact ⟨_, exec_call r hp h, hsp, toNat_pushAddress_succ h, hregs, (congrArg BitVec.toNat hcell).trans hexact, hcells,
    congrArg zext9 (reg_setSp s _ r), hframe⟩

/-- Settles O10: the byte is read before SP moves, and the rest is the frame of a move of SP and a jump. -/
theorem returnJumpsToTopOfStack : Obligations.ReturnJumpsToTopOfStack := by
  refine ⟨fun s h => ?_, fun _ => exec_ret_of_top, runsAs_encode (i := .ret) rfl⟩
  obtain ⟨hsp, hframe⟩ := setSp_jumpTo_frame s (BitVec.ofNat 8 (s.sp.toNat + 1)) (s.readByte s.sp)
  exact ⟨_, exec_ret h, rfl, by rw [hsp, toNat_ofNat_succ h], hframe⟩

/-! ### JUMP and the conditional jumps -/

/-- Settles O11: the frame of a write to `pc`. -/
theorem jumpGoesToRegister : Obligations.JumpGoesToRegister :=
  ⟨fun r s => ⟨_, exec_jump r s, rfl, pc_frame s (zext9 (s.reg r))⟩,
    runsAs_of_r (o := .jump) rfl, oneRegisterFaults_of_r (o := .jump) rfl⟩

/-- Settles O12: taken or not, the frame is that of a write to `pc`. -/
theorem jumpIfEqualTestsForEqual : Obligations.JumpIfEqualTestsForEqual := by
  refine ⟨fun r s => ?_, runsAs_of_r (o := .jumpIfEqual) rfl, oneRegisterFaults_of_r (o := .jumpIfEqual) rfl⟩
  by_cases h : s.flag = .eq
  · exact ⟨_, exec_jumpIfEqual_of_eq r h, fun _ => rfl, fun hne => absurd h hne, pc_frame s (zext9 (s.reg r))⟩
  · exact ⟨_, exec_jumpIfEqual_of_ne r h, fun heq => absurd heq h, fun _ => rfl, pc_frame s (s.pc + 2)⟩

/-- Settles O13: taken or not, the frame is that of a write to `pc`, and the flags listed are the ones that are not
EQ. -/
theorem jumpIfNotEqualTakesEveryOtherFlag : Obligations.JumpIfNotEqualTakesEveryOtherFlag := by
  refine ⟨fun r s => ?_, runsAs_of_r (o := .jumpIfNotEqual) rfl, oneRegisterFaults_of_r (o := .jumpIfNotEqual) rfl⟩
  rw [← Flag.ne_eq_iff]
  by_cases h : s.flag = .eq
  · exact ⟨_, exec_jumpIfNotEqual_of_eq r h, fun hne => absurd h hne, fun _ => rfl, pc_frame s (s.pc + 2)⟩
  · exact ⟨_, exec_jumpIfNotEqual_of_ne r h, fun _ => rfl, fun heq => absurd heq h, pc_frame s (zext9 (s.reg r))⟩

end Sys2Proof.Machine
end

section
/-! What the status and fault ports read after a fault entry; then the exception family's statement about it
(spec/60_exceptions.md). -/

namespace Sys2Proof.Machine

/-! ### Fault entry (R202) -/

/-- After a fault entry the four fault ports read the cause, `pc`, the opcode byte at `pc` and the detail. -/
theorem fault_ports_raise (s : State) (c : Cause) (d : Nat) :
    (s.raise c d).faultCause = c.code ∧ (s.raise c d).faultPc = s.pc ∧ (s.raise c d).faultOpcode = s.opcodeAtPc ∧
      (s.raise c d).faultDetail = BitVec.ofNat 9 d :=
  fault_ports_of_some (raise_fault_eq_raiseRecord s c d)

/-- After a fault entry the exit status is 1 (R38). -/
theorem exitStatus_raise (s : State) (c : Cause) (d : Nat) : (s.raise c d).exitStatus = 1 := by
  rw [exitStatus_eq_ite, if_pos (raise_life ..)]

/-- Settles O27: a step into Faulted is a fault entry from the state before it, whose fields are those of `State.raise`
and whose ports read the record it fills. -/
theorem faultEntryChangesOnlyStatusAndRecord : Obligations.FaultEntryChangesOnlyStatusAndRecord := by
  intro s t h ht
  obtain ⟨c, d, rfl⟩ := step_faulted_eq_raise h ht
  obtain ⟨hcause, hpc, hopcode, hdetail⟩ := fault_ports_raise s c d
  exact ⟨raise_regs .., raise_mem .., raise_flag .., raise_out .., raise_pc .., exitStatus_raise s c d, c, d, rfl,
    hcause, hpc, hdetail, hopcode⟩

end Sys2Proof.Machine
end

section
/-! What a boot answers and what a block in its reset state reads; then the reset family's statements
(spec/70_reset_and_hazards.md). -/

namespace Sys2Proof.Machine

/-! ### Boot (R243, R244) -/

/-- A program that fits boots to the reset state over a memory that holds it from address 0. -/
theorem boot_of_le {program : List Byte} (h : program.length ≤ 256) :
    boot program = .next { State.reset with mem := Memory.storeFrom [] 0 program } := by
  rw [boot, if_pos h]

/-- Bytes stored from address 0 into blank memory are read back in order, and every later cell is blank. -/
theorem Memory.read_storeFrom_nil (program : List Byte) (a : Byte) :
    (Memory.storeFrom [] 0 program).read a.toNat = program.getD a.toNat Config.blankByte := by
  rw [Memory.read_storeFrom [] 0 a.toNat program a.isLt, if_pos (Nat.zero_le _), Nat.sub_zero, Memory.read_nil,
    List.getD_eq_getElem?_getD]

/-- Settles O50: the cells are read back from the store of the program into blank memory, which keeps the canonical
form, and the block around that memory is the reset one. -/
theorem bootLoadsTheProgramFromZero : Obligations.BootLoadsTheProgramFromZero := fun program h =>
  ⟨_, boot_of_le h, Memory.read_storeFrom_nil program, rfl, Memory.wf_storeFrom Memory.wf_reset 0 program⟩

/-! ### The reset values (R241) -/

/-- Every register but SP is reset to 0 (D9). -/
theorem reg_resetBlock (s : State) {r : Reg} (hr : r ≠ Config.spIndex) : s.resetBlock.reg r = 0 := by
  have hreset : ∀ q : Reg, q ≠ Config.spIndex → State.reset.reg q = 0 := by decide
  exact hreset r hr

theorem sp_resetBlock (s : State) : s.resetBlock.sp = Config.spReset := rfl

/-- The exit status is 0 after reset, which leaves the block Running (R38). -/
theorem exitStatus_resetBlock (s : State) : s.resetBlock.exitStatus = 0 := by
  rw [exitStatus_eq_ite, resetBlock_life, if_neg (by decide)]

/-- Power-up is the block reset over blank memory, so what holds after the reset of any state holds at power-up. -/
theorem reset_resetBlock : State.reset.resetBlock = State.reset := rfl

/-- Settles O48: both states listed are the block reset of some state, whose registers, ports and exit status are read
one by one. -/
theorem resetGivesEveryPieceItsValue : Obligations.ResetGivesEveryPieceItsValue := by
  intro s t ht
  obtain ⟨s', rfl⟩ : ∃ s' : State, t = s'.resetBlock := by
    obtain rfl | rfl : t = State.reset ∨ t = s.resetBlock := by simpa using ht
    · exact ⟨State.reset, reset_resetBlock.symm⟩
    · exact ⟨s, rfl⟩
  obtain ⟨hcause, hpc, hopcode, hdetail⟩ := fault_ports_of_none (resetBlock_fault s')
  exact ⟨fun _ => reg_resetBlock s', sp_resetBlock s', resetBlock_pc s', resetBlock_flag s', rfl, resetBlock_life s',
    hcause, hpc, hopcode, hdetail, resetBlock_out s', exitStatus_resetBlock s'⟩

end Sys2Proof.Machine
end

section
/-! The decoder and the encoder under every injective opcode map, and the first failing check of a meaning and of CALL;
then the statements about encoding, the execution cycle and the faults that draw on them. -/

namespace Sys2Proof

/-- Under an injective map an operation's byte leaves the answer to the operand stage (R80). -/
theorem decodeWith_opcode_cons {m : OpcodeMap} (hm : m.Injective) (o : Op) (operands : List Byte) :
    decodeWith m (m o :: operands) = decodeOperands o operands := by
  simp only [decodeWith_cons, opOfByte_self hm]

/-- Settles O15: the lookup finds the operation by injectivity, and the operand stage takes exactly the instruction's
own operand bytes, none of which it refuses. -/
theorem decodeEncodeRoundTrip : Obligations.DecodeEncodeRoundTrip := by
  intro m hm i hi rest
  rw [encodeWith, List.cons_append, decodeWith_opcode_cons hm, decodeOperands_append]
  simp only [firstBadRegister_eq_none.mpr hi]

/-- Settles O16: of the four things the decoder can answer only one is an instruction. -/
theorem decoderAcceptsOnlyEncodings : Obligations.DecoderAcceptsOnlyEncodings := by
  intro m bytes rest i h
  obtain ⟨-, hd⟩ | ⟨_, _, -, -, hd⟩ | ⟨_, _, _, -, -, hd⟩ | ⟨_, _, hb, hwf, hd⟩ :=
    decodeWith_cases m bytes <;> cases hd.symm.trans h
  exact ⟨hb, hwf⟩

/-- Settles O14: each word is the encoding of its instruction, which is well formed. -/
theorem tableWordsDecode : Obligations.TableWordsDecode := by
  have hdecode {i : Instr} (hi : i.wellFormed = true) : decode (encode i) = .ok i [] := by
    simpa using decode_encode_append hi []
  exact ⟨hdecode (i := .halt) rfl, hdecode (i := .loadImmediate 0 8) rfl, hdecode (i := .printReg 5) rfl,
    hdecode (i := .add 1 2) rfl, hdecode (i := .mul 3 4) rfl, hdecode (i := .push 6) rfl, hdecode (i := .pop 7) rfl,
    hdecode (i := .call 1) rfl, hdecode (i := .ret) rfl, hdecode (i := .compare 7 0) rfl, hdecode (i := .jump 2) rfl,
    hdecode (i := .jumpIfEqual 3) rfl, hdecode (i := .jumpIfNotEqual 4) rfl⟩

end Sys2Proof

namespace Sys2Proof.Machine

/-! ### Register operands of a meaning -/

/-- A meaning with one register operand raises BadRegister with the first bad one (R78). -/
theorem withReg_of_firstBad {a r : Byte} (h : [a].find? (fun q => decide (7 < q.toNat)) = some r) (s : State)
    (k : Reg → Host.Outcome State Fault Refusal) : withReg a s k = .next (s.raise .badRegister r.toNat) := by
  obtain ⟨ha, rfl⟩ : 7 < a.toNat ∧ a = r := by simpa [List.find?_singleton] using h
  exact withReg_of_gt ha s k

/-- A meaning with two register operands raises BadRegister with the first bad one, `op1` before `op2` (R78, R204). -/
theorem withReg_withReg_of_firstBad {a b r : Byte} (h : [a, b].find? (fun q => decide (7 < q.toNat)) = some r)
    (s : State) (k : Reg → Reg → Host.Outcome State Fault Refusal) :
    withReg a s (fun ra => withReg b s (k ra)) = .next (s.raise .badRegister r.toNat) := by
  rw [List.find?_cons] at h
  obtain ⟨ra, rfl, hk⟩ | ⟨ha, hbad⟩ := withReg_cases a s (fun ra => withReg b s (k ra))
  · rw [decide_eq_false (Nat.not_lt.mpr (byteOfReg_le ra))] at h
    exact hk.trans (withReg_of_firstBad h s (k ra))
  · rw [decide_eq_true ha] at h
    cases h
    exact hbad

/-- Every meaning raises BadRegister with its first bad register operand (R78). -/
theorem exec_of_firstBadRegister {i : Instr} {r : Byte} (h : i.firstBadRegister = some r) (s : State) :
    exec i s = .next (s.raise .badRegister r.toNat) := by
  cases i with
  | halt | ret => cases h
  | loadImmediate | printReg | push | pop | call | jump | jumpIfEqual | jumpIfNotEqual =>
    exact withReg_of_firstBad h s _
  | add | mul | compare => exact withReg_withReg_of_firstBad h s _

/-- Settles O22: every meaning takes its operands through the register check before anything else. -/
theorem meaningsRaiseBadRegisterToo : Obligations.MeaningsRaiseBadRegisterToo :=
  fun s _ _ _ _ hi hbefore hr => exec_of_firstBadRegister (firstBadRegister_of_append hi hbefore hr) s

/-! ### The execution cycle -/

/-- An advance that stays at or below 256 is exact (R24). -/
theorem toNat_pc_advance {s : State} {n : Nat} (h : s.pc.toNat + n ≤ 256) :
    (s.advance n).pc.toNat = s.pc.toNat + n := by
  rw [advance_pc, BitVec.toNat_add, BitVec.toNat_ofNat]
  omega

/-- An instruction at `pc` ends at or below address 256. -/
theorem end_le_of_instructionAt {s : State} {i : Instr} (h : s.InstructionAt (encode i)) :
    s.pc.toNat + i.length ≤ 256 := by
  rw [← length_encode]
  exact instructionAt_end_le h (List.cons_ne_nil _ _)

/-- Settles O24: the last byte of the instruction has an address, so the sum fits. -/
theorem advancePastFetchedInstructionIsExact : Obligations.AdvancePastFetchedInstructionIsExact := fun _ _ h =>
  ⟨toNat_pc_advance (end_le_of_instructionAt h), end_le_of_instructionAt h⟩

/-- Settles O23: the bytes of a well-formed instruction run it. -/
theorem stepRunsTheInstructionAtPc : Obligations.StepRunsTheInstructionAtPc :=
  fun s _ hi h => runsAs_encode hi s h

/-- Settles O26: by the lifecycle state; a running block has a next state, so its step is not refused. -/
theorem terminalStatesStopByName : Obligations.TerminalStatesStopByName := by
  intro s
  have hhalted (hl : s.life = .halted) : step s = .fault .blockHalted := by simp only [step, hl]
  have hfaulted (hl : s.life = .faulted) : step s = .fault .blockFaulted := by simp only [step, hl]
  refine ⟨hhalted, hfaulted, fun r hr => ?_⟩
  cases hl : s.life with
  | halted => cases (hhalted hl).symm.trans hr
  | faulted => cases (hfaulted hl).symm.trans hr
  | running =>
    obtain ⟨t, ht⟩ := exists_step_eq_next hl
    cases ht.symm.trans hr

/-! ### Faults -/

/-- Settles O28: a step that enters Faulted fills the record by its row. -/
theorem faultRecordFollowsCauseTable : Obligations.FaultRecordFollowsCauseTable :=
  fun _ _ => step_faulted_record

/-- Settles O29: a bad operand is found by the decoder; on a register the step is CALL's meaning, whose checks come in
the order of R204, and the instruction's own bytes keep `pc` at or below 254. -/
theorem callReportsItsFirstFailingCheck : Obligations.CallReportsItsFirstFailingCheck := by
  obtain ⟨hcall, hreturnRange, hstackRange, hruns, -, hbad⟩ := callPushesReturnAddressAndJumps
  intro s b h
  have hpc : s.pc.toNat + 2 ≤ 256 := instructionAt_end_le h (List.cons_ne_nil _ _)
  refine ⟨hbad s b h, ?_⟩
  by_cases hb : b.toNat ≤ 7
  · obtain ⟨r, -, rfl⟩ := regOfByte_of_le hb
    rw [hruns r s h]
    refine ⟨fun _ h254 => ?_, fun _ hne => hstackRange r s (by omega), fun _ hne hsp => ?_⟩
    · rw [hreturnRange r s (by omega), h254]
    · obtain ⟨t, ht, -, -, -, -, -, -, -, -, hlife, -⟩ := hcall r s (by omega) hsp
      exact ⟨t, ht, hlife.trans h.1⟩
  · exact ⟨fun hle => absurd hle hb, fun hle => absurd hle hb, fun hle => absurd hle hb⟩

end Sys2Proof.Machine
end

section
/-! What an instruction that completes leaves in each part of the state, one lemma per part; then the statements about
registers, memory, output and `pc` that go through them, and the state invariant. -/

namespace Sys2Proof.Machine

/-! ### Registers (R22) -/

theorem eq_of_reg_setReg_ne {s : State} {q r : Reg} {v : Byte} (h : (s.setReg q v).reg r ≠ s.reg r) : r = q := by
  by_contra hrq
  exact h (by rw [reg_setReg, if_neg hrq])

theorem eq_spIndex_of_reg_setSp_ne {s : State} {r : Reg} {v : Byte} (h : (s.setSp v).reg r ≠ s.reg r) :
    r = Config.spIndex :=
  eq_of_reg_setReg_ne h

/-- A register that a completed instruction changes is its destination, or it is R7 and the instruction moves SP. -/
theorem completes_reg_ne {i : Instr} {s t : State} {r : Reg} (h : Completes i s t) (hr : t.reg r ≠ s.reg r) :
    (∃ v, i = .loadImmediate (byteOfReg r) v) ∨ (∃ b, i = .add (byteOfReg r) b) ∨ (∃ b, i = .mul (byteOfReg r) b) ∨
      i = .pop (byteOfReg r) ∨
      (r = Config.spIndex ∧ (i.op = .push ∨ i.op = .pop ∨ i.op = .call ∨ i.op = .ret)) := by
  cases i with
  | halt => subst h; exact absurd rfl hr
  | printReg | jump => obtain ⟨_, -, rfl⟩ := h; exact absurd rfl hr
  | compare => obtain ⟨_, _, -, -, rfl⟩ := h; exact absurd rfl hr
  | jumpIfEqual | jumpIfNotEqual => obtain ⟨_, -, ⟨-, rfl⟩ | ⟨-, rfl⟩⟩ := h <;> exact absurd rfl hr
  | loadImmediate _ v =>
    obtain ⟨_, rfl, rfl⟩ := h
    cases eq_of_reg_setReg_ne hr
    exact .inl ⟨v, rfl⟩
  | add _ b =>
    obtain ⟨_, _, rfl, -, rfl⟩ := h
    cases eq_of_reg_setReg_ne hr
    exact .inr (.inl ⟨b, rfl⟩)
  | mul _ b =>
    obtain ⟨_, _, rfl, -, rfl⟩ := h
    cases eq_of_reg_setReg_ne hr
    exact .inr (.inr (.inl ⟨b, rfl⟩))
  | push =>
    obtain ⟨_, -, -, rfl⟩ := h
    exact .inr (.inr (.inr (.inr ⟨eq_spIndex_of_reg_setSp_ne hr, .inl rfl⟩)))
  | call =>
    obtain ⟨_, -, -, -, rfl⟩ := h
    exact .inr (.inr (.inr (.inr ⟨eq_spIndex_of_reg_setSp_ne hr, .inr (.inr (.inl rfl))⟩)))
  | ret =>
    obtain ⟨-, rfl⟩ := h
    exact .inr (.inr (.inr (.inr ⟨eq_spIndex_of_reg_setSp_ne hr, .inr (.inr (.inr rfl))⟩)))
  | pop =>
    obtain ⟨q, rfl, -, rfl⟩ := h
    by_cases hsp : r = Config.spIndex
    · exact .inr (.inr (.inr (.inr ⟨hsp, .inr (.inl rfl)⟩)))
    · rw [reg_advance, reg_setSp, if_neg hsp] at hr
      cases eq_of_reg_setReg_ne hr
      exact .inr (.inr (.inr (.inl rfl)))

/-- Settles O33: a fault entry changes no register, and a completed instruction only those listed. -/
theorem registersChangeOnlyAsListed : Obligations.RegistersChangeOnlyAsListed := by
  intro i s t r h hr
  obtain hc | ⟨c, d, rfl, -⟩ := exec_next_cases h
  · exact completes_reg_ne hc hr
  · exact absurd rfl hr

/-! ### Memory (R51, R57) -/

/-- A completed PUSH or CALL has written one cell, at the decremented SP; every other instruction leaves memory. -/
theorem completes_mem {i : Instr} {s t : State} (h : Completes i s t) :
    ((i.op = .push ∨ i.op = .call) ∧ ∃ v, t.mem = s.mem.write s.pushAddress.toNat v) ∨
      (i.op ≠ .push ∧ i.op ≠ .call ∧ t.mem = s.mem) := by
  cases i with
  | push => obtain ⟨_, -, -, rfl⟩ := h; exact .inl ⟨.inl rfl, _, rfl⟩
  | call => obtain ⟨_, -, -, -, rfl⟩ := h; exact .inl ⟨.inr rfl, _, rfl⟩
  | halt => subst h; exact .inr ⟨nofun, nofun, rfl⟩
  | loadImmediate | printReg | jump => obtain ⟨_, -, rfl⟩ := h; exact .inr ⟨nofun, nofun, rfl⟩
  | add | mul | compare => obtain ⟨_, _, -, -, rfl⟩ := h; exact .inr ⟨nofun, nofun, rfl⟩
  | pop => obtain ⟨_, -, -, rfl⟩ := h; exact .inr ⟨nofun, nofun, rfl⟩
  | ret => obtain ⟨-, rfl⟩ := h; exact .inr ⟨nofun, nofun, rfl⟩
  | jumpIfEqual | jumpIfNotEqual => obtain ⟨_, -, ⟨-, rfl⟩ | ⟨-, rfl⟩⟩ := h <;> exact .inr ⟨nofun, nofun, rfl⟩

theorem sameCells_of_mem_eq {s t : State} (h : t.mem = s.mem) : SameCells s t := fun a => by
  rw [State.readByte, h, State.readByte]

theorem sameCellsBut_of_mem_eq_write {s t : State} {a v : Byte} (h : t.mem = s.mem.write a.toNat v) :
    SameCellsBut a s t := fun b hb => by
  rw [State.readByte, h, Memory.read_write, if_neg (fun he => hb (BitVec.eq_of_toNat_eq he)), State.readByte]

/-- Settles O34: a fault entry stores nothing, and a completed instruction only what `completes_mem` says. -/
theorem onlyPushAndCallStore : Obligations.OnlyPushAndCallStore := by
  intro i s t h
  obtain hc | ⟨c, d, rfl, -⟩ := exec_next_cases h
  · obtain ⟨hi, v, hm⟩ | ⟨hpush, hcall, hm⟩ := completes_mem hc
    · exact ⟨fun _ => sameCellsBut_of_mem_eq_write hm, fun hpush hcall => absurd hi (by simp [hpush, hcall])⟩
    · exact ⟨fun hi => absurd hi (by simp [hpush, hcall]), fun _ _ => sameCells_of_mem_eq hm⟩
  · exact ⟨fun _ _ _ => rfl, fun _ _ _ => rfl⟩

/-! ### The output list (R36, R125) -/

/-- A completed instruction leaves the output list, or it is PRINT_REG and appends its register's value. -/
theorem completes_out {i : Instr} {s t : State} (h : Completes i s t) :
    t.out = s.out ∨ ∃ r, i = .printReg (byteOfReg r) ∧ t.out = s.out ++ [s.reg r] := by
  cases i with
  | printReg => obtain ⟨r, rfl, rfl⟩ := h; exact .inr ⟨r, rfl, rfl⟩
  | halt => subst h; exact .inl rfl
  | loadImmediate | jump => obtain ⟨_, -, rfl⟩ := h; exact .inl rfl
  | add | mul | compare => obtain ⟨_, _, -, -, rfl⟩ := h; exact .inl rfl
  | push | pop => obtain ⟨_, -, -, rfl⟩ := h; exact .inl rfl
  | call => obtain ⟨_, -, -, -, rfl⟩ := h; exact .inl rfl
  | ret => obtain ⟨-, rfl⟩ := h; exact .inl rfl
  | jumpIfEqual | jumpIfNotEqual => obtain ⟨_, -, ⟨-, rfl⟩ | ⟨-, rfl⟩⟩ := h <;> exact .inl rfl

/-- The instruction the decoder answers stands at `pc`. -/
theorem instructionAt_of_decodeAtPc_ok {s : State} {i : Instr} {rest : List Byte} (hl : s.life = .running)
    (h : s.decodeAtPc = .ok i rest) : s.InstructionAt (encode i) := by
  refine ⟨hl, fun k b hb => ?_⟩
  obtain ⟨hbytes, -⟩ := decoderAcceptsOnlyEncodings opcodeByte s.fetchBytes rest i h
  obtain ⟨hk, -⟩ := List.getElem?_eq_some_iff.mp hb
  have hk3 : k < 3 := hk.trans_le ((length_encode i).trans_le (length_le_three i))
  have hfetch := getElem?_fetchBytes s k
  rw [if_pos hk3, hbytes] at hfetch
  rw [← hfetch, ← hb]
  exact List.getElem?_append_left hk

/-- Settles O35: a step that is no completed PRINT_REG leaves the output list, and a PRINT_REG the decoder answered
stands at `pc`. -/
theorem onlyPrintRegEmits : Obligations.OnlyPrintRegEmits := by
  intro s t h
  obtain ⟨hl, ⟨i, rest, hd, hx⟩ | ⟨k, -, rfl⟩ | ⟨b, -, rfl⟩ | ⟨r, -, rfl⟩⟩ := step_next_cases h
  · obtain hc | ⟨c, d, rfl, -⟩ := exec_next_cases hx
    · obtain hout | ⟨r, rfl, hout⟩ := completes_out hc
      · exact .inl hout
      · exact .inr ⟨r, instructionAt_of_decodeAtPc_ok hl hd, hout⟩
    · exact .inl rfl
  · exact .inl rfl
  · exact .inl rfl
  · exact .inl rfl

/-! ### The program counter (R25) -/

/-- An operand byte names one register, so a jump to its value is a jump to that register's value. -/
theorem zext9_reg_of_byteOfReg (s : State) (q : Reg) :
    ∀ r, byteOfReg r = byteOfReg q → zext9 (s.reg q) = zext9 (s.reg r) :=
  fun _ hr => by rw [byteOfReg_injective hr]

/-- Settles O36: the step is the instruction's meaning, which completes; the fetched bytes keep the sum exact, and an
operand byte names one register. -/
theorem stepMovesPcAsTheTableSays : Obligations.StepMovesPcAsTheTableSays := by
  intro s t i hi h hstep ht
  have hend := end_le_of_instructionAt h
  have hc : Completes i s t := by
    rw [runsAs_encode hi s h] at hstep
    obtain hc | ⟨c, d, rfl, -⟩ := exec_next_cases hstep
    · exact hc
    · exact absurd rfl ht
  cases i with
  | halt => subst hc; exact toNat_pc_advance hend
  | loadImmediate | printReg => obtain ⟨_, -, rfl⟩ := hc; exact toNat_pc_advance hend
  | add | mul | compare => obtain ⟨_, _, -, -, rfl⟩ := hc; exact toNat_pc_advance hend
  | push | pop => obtain ⟨_, -, -, rfl⟩ := hc; exact toNat_pc_advance hend
  | call =>
    obtain ⟨q, rfl, -, -, rfl⟩ := hc
    exact zext9_reg_of_byteOfReg (s.setSp s.pushAddress) q
  | ret => obtain ⟨-, rfl⟩ := hc; rfl
  | jump =>
    obtain ⟨q, rfl, rfl⟩ := hc
    exact zext9_reg_of_byteOfReg s q
  | jumpIfEqual =>
    obtain ⟨q, rfl, ⟨hf, rfl⟩ | ⟨hf, rfl⟩⟩ := hc
    · simp only [if_pos hf]
      exact zext9_reg_of_byteOfReg s q
    · simp only [if_neg hf]
      exact toNat_pc_advance hend
  | jumpIfNotEqual =>
    obtain ⟨q, rfl, ⟨hf, rfl⟩ | ⟨hf, rfl⟩⟩ := hc
    · simp only [if_pos hf]
      exact zext9_reg_of_byteOfReg s q
    · simp only [if_neg (not_not_intro hf)]
      exact toNat_pc_advance hend

/-! ### The state invariant -/

theorem pc_jumpTo_le (s : State) (v : Byte) : (s.jumpTo v).pc.toNat ≤ 256 := by
  rw [jumpTo_pc, toNat_zext9]
  exact v.isLt.le

/-- A completed instruction whose bytes end at or below 256 leaves `pc` at or below 256 (R24). -/
theorem completes_pc_le {i : Instr} {s t : State} (h : Completes i s t) (hend : s.pc.toNat + i.length ≤ 256) :
    t.pc.toNat ≤ 256 := by
  have hadvance : (s.advance i.length).pc.toNat ≤ 256 := (toNat_pc_advance hend).trans_le hend
  cases i with
  | halt => subst h; exact hadvance
  | loadImmediate | printReg => obtain ⟨_, -, rfl⟩ := h; exact hadvance
  | add | mul | compare => obtain ⟨_, _, -, -, rfl⟩ := h; exact hadvance
  | push | pop => obtain ⟨_, -, -, rfl⟩ := h; exact hadvance
  | call => obtain ⟨_, -, -, -, rfl⟩ := h; exact pc_jumpTo_le ..
  | ret => obtain ⟨-, rfl⟩ := h; exact pc_jumpTo_le ..
  | jump => obtain ⟨_, -, rfl⟩ := h; exact pc_jumpTo_le ..
  | jumpIfEqual | jumpIfNotEqual => obtain ⟨_, -, ⟨-, rfl⟩ | ⟨-, rfl⟩⟩ := h <;> [exact pc_jumpTo_le ..; exact hadvance]

/-- A completed instruction keeps memory canonical: it writes existing cells only (R50). -/
theorem completes_mem_wf {i : Instr} {s t : State} (h : Completes i s t) (hwf : s.mem.wf = true) :
    t.mem.wf = true := by
  obtain ⟨-, v, hm⟩ | ⟨-, -, hm⟩ := completes_mem h <;> rw [hm]
  · exact Memory.wf_write hwf s.pushAddress.isLt v
  · exact hwf

/-- A block that is not Faulted and holds no record meets the invariant if `pc` and memory do. -/
theorem State.Inv.of_no_record {s : State} (hpc : s.pc.toNat ≤ 256) (hwf : s.mem.wf = true) (hl : s.life ≠ .faulted)
    (hf : s.fault = none) : s.Inv :=
  ⟨hpc, hwf, by simp [hf, hl], fun r hr => by cases hf.symm.trans hr⟩

/-- A completed instruction of a running block keeps the invariant. -/
theorem State.Inv.of_completes {i : Instr} {s t : State} (hs : s.Inv) (hl : s.life = .running)
    (hend : s.pc.toNat + i.length ≤ 256) (h : Completes i s t) : t.Inv := by
  obtain ⟨hfault, -⟩ := completes_frame h
  have hnone : s.fault = none := hs.fault_eq_none (by rw [hl]; decide)
  exact .of_no_record (completes_pc_le h hend) (completes_mem_wf h hs.mem_wf) (completes_life_ne_faulted hl h)
    (hfault.trans hnone)

/-- A fault entry keeps the invariant: the record it fills names the instruction at `pc` (R202). -/
theorem State.Inv.raise {s : State} (hs : s.Inv) (c : Cause) (d : Nat) : (s.raise c d).Inv := by
  refine ⟨hs.pc_le, hs.mem_wf, iff_of_true rfl rfl, fun r hr => ?_⟩
  rw [raise_fault] at hr
  cases hr
  exact ⟨rfl, rfl⟩

/-- Settles O37: a step completes an instruction that ends at or below 256, or it is a fault entry. -/
theorem stepKeepsTheInvariant : Obligations.StepKeepsTheInvariant := by
  intro s t hs h
  obtain ⟨hl, ⟨i, rest, hd, hx⟩ | ⟨k, -, rfl⟩ | ⟨b, -, rfl⟩ | ⟨r, -, rfl⟩⟩ := step_next_cases h
  · obtain ⟨-, -, hend⟩ := decodeAtPc_ok hd
    obtain hc | ⟨c, d, rfl, -⟩ := exec_next_cases hx
    · exact hs.of_completes hl hend hc
    · exact hs.raise c d
  · exact hs.raise _ _
  · exact hs.raise _ _
  · exact hs.raise _ _

/-- The reset state over a canonical memory meets the invariant. -/
theorem State.Inv.resetBlock {s : State} (hwf : s.mem.wf = true) : s.resetBlock.Inv :=
  .of_no_record (by simp) hwf nofun rfl

/-- Settles O38: power-up is the block reset over blank memory, which is canonical. -/
theorem resetMeetsTheInvariant : Obligations.ResetMeetsTheInvariant :=
  State.Inv.resetBlock (s := State.reset) Memory.wf_reset

/-- What holds of a state and is kept by every step holds of every state its run reaches. -/
theorem Reaches.induct {P : State → Prop} {s t : State} (h : Reaches s t) (hs : P s)
    (hstep : ∀ u v, P u → Sys2Proof.Machine.step u = .next v → P v) : P t := by
  induction h with
  | here => exact hs
  | step _ hnext ih => exact hstep _ _ ih hnext

/-- Only a program that fits boots. -/
theorem length_le_of_boot {program : List Byte} {s : State} (h : boot program = .next s) : program.length ≤ 256 := by
  by_contra hlen
  rw [boot, if_neg hlen] at h
  cases h

/-- Settles O39: a booted state is the reset state over the stored program, and every step keeps the invariant. -/
theorem bootedRunsMeetTheInvariant : Obligations.BootedRunsMeetTheInvariant := by
  intro program s t hboot hrun
  obtain ⟨s', hs', -, hreset, hwf⟩ := bootLoadsTheProgramFromZero program (length_le_of_boot hboot)
  cases hboot.symm.trans hs'
  exact hrun.induct (hreset ▸ State.Inv.resetBlock hwf) stepKeepsTheInvariant

end Sys2Proof.Machine
end

section
/-! The ALU as addition and multiplication of bytes; then the statements about two instructions in a row, which follow
from what each of the two does. -/

namespace Sys2Proof.Machine

/-! ### ADD and MUL (R101, R103, R106) -/

theorem aluAdd_eq_add (a b : Byte) : aluAdd a b = a + b :=
  BitVec.eq_of_toNat_eq (by rw [toNat_aluAdd, BitVec.toNat_add])

theorem aluMul_eq_mul (a b : Byte) : aluMul a b = a * b :=
  BitVec.eq_of_toNat_eq (by rw [toNat_aluMul, BitVec.toNat_mul])

theorem reg_of_exec_add {a b : Reg} {s t : State} (h : exec (.add (byteOfReg a) (byteOfReg b)) s = .next t) :
    t.reg a = s.reg a + s.reg b := by
  rw [exec_add] at h
  cases h
  rw [reg_advance, reg_setReg, if_pos rfl, aluAdd_eq_add]

theorem reg_of_exec_mul {a b : Reg} {s t : State} (h : exec (.mul (byteOfReg a) (byteOfReg b)) s = .next t) :
    t.reg a = s.reg a * s.reg b := by
  rw [exec_mul] at h
  cases h
  rw [reg_advance, reg_setReg, if_pos rfl, aluMul_eq_mul]

/-- Settles O43: the ALU computes in the commutative ring of bytes. -/
theorem addAndMulAreCommutativeAndAssociative : Obligations.AddAndMulAreCommutativeAndAssociative := by
  refine ⟨fun a b s t u ht hu => ?_, fun a b s t u ht hu => ?_, fun x y z => ?_, fun x => ?_⟩
  · rw [reg_of_exec_add ht, reg_of_exec_add hu, BitVec.add_comm]
  · rw [reg_of_exec_mul ht, reg_of_exec_mul hu, BitVec.mul_comm]
  · simp only [aluAdd_eq_add, aluMul_eq_mul, BitVec.add_assoc, BitVec.mul_assoc, and_self]
  · simp only [aluAdd_eq_add, aluMul_eq_mul]
    exact ⟨BitVec.add_zero x, BitVec.mul_one x, BitVec.mul_zero⟩

/-! ### Registers and cells across two instructions -/

theorem SameRegsBut.trans {rs qs : List Reg} {s t u : State} (h : SameRegsBut rs s t) (h' : SameRegsBut qs t u) :
    SameRegsBut (rs ++ qs) s u := by
  intro q hq
  rw [List.mem_append, not_or] at hq
  exact (h' q hq.2).trans (h q hq.1)

/-- Registers that may have changed and did not are registers that are the same. -/
theorem SameRegsBut.of_eq {rs : List Reg} {s t : State} (h : SameRegsBut rs s t) (heq : ∀ q ∈ rs, t.reg q = s.reg q) :
    SameRegsBut [] s t := fun q _ => by
  by_cases hq : q ∈ rs
  · exact heq q hq
  · exact h q hq

/-- The first byte the decoder is given is the cell `pc` points to (R76). -/
theorem head?_fetchBytes (s : State) : s.fetchBytes.head? = s.fetchByte s.pc.toNat := by
  rw [List.head?_eq_getElem?, getElem?_fetchBytes, if_pos (by decide), Nat.add_zero]

/-! ### PUSH, then the next fetch or a POP -/

/-- Settles O42: PUSH leaves `pc` at the cell it stored to. -/
theorem storeIsSeenByTheNextFetch : Obligations.StoreIsSeenByTheNextFetch := by
  obtain ⟨hpush, -, hruns, -⟩ := pushStoresBelowStackPointer
  intro s r h hsp
  obtain ⟨t, ht, -, haddr, -, hcell, -, hpc, -⟩ := hpush r s (by omega)
  have hlt := s.sp.isLt
  have htpc : t.pc.toNat = s.pushAddress.toNat := by
    calc t.pc.toNat = (s.advance 2).pc.toNat := congrArg BitVec.toNat hpc
      _ = s.pc.toNat + 2 := toNat_pc_advance (by omega)
      _ = s.pushAddress.toNat := by omega
  refine ⟨t, (hruns r s h).trans ht, ?_⟩
  rw [head?_fetchBytes, fetchByte_of_le _ (htpc.trans_le (Nat.le_of_lt_succ s.pushAddress.isLt)), htpc, ← hcell,
    State.readByte]

/-- Settles O44: the POP reads the cell the PUSH stored to and moves SP back up to where it stood; for R7 the popped
value plus 1 is that same SP. -/
theorem pushThenPopRoundTrips : Obligations.PushThenPopRoundTrips := by
  obtain ⟨hpush, -⟩ := pushStoresBelowStackPointer
  obtain ⟨hpop, hpopSp, -⟩ := popReadsThenMovesStackPointer
  intro r s h
  have hlt := s.sp.isLt
  obtain ⟨t, ht, hsp, haddr, hregs, hcell, -, hpc, -⟩ := hpush r s h
  rw [← hsp] at haddr hcell ⊢
  obtain ⟨u, hu, husp, hureg, huregs, hupc, hucells⟩ : ∃ u, exec (.pop (byteOfReg r)) t = .next u ∧ u.sp = s.sp ∧
      u.reg r = s.reg r ∧ SameRegsBut [r, Config.spIndex] t u ∧ u.pc = t.pc + 2 ∧ SameCells t u := by
    by_cases hr : r = Config.spIndex
    · subst hr
      rw [if_pos rfl] at hcell
      obtain ⟨u, hu, husp, huregs, hupc, -, -, -, hucells⟩ := hpopSp t (by rw [hcell]; omega)
      have hback : u.sp = s.sp := BitVec.eq_of_toNat_eq (by rw [husp, hcell, haddr])
      exact ⟨u, hu, hback, hback, fun q hq => huregs q (List.not_mem_of_not_mem_cons hq), hupc, hucells⟩
    · rw [if_neg hr] at hcell
      obtain ⟨u, hu, hureg, husp, huregs, hupc, -, -, -, hucells⟩ := hpop r t hr (by omega)
      have hback : u.sp = s.sp := BitVec.eq_of_toNat_eq (by rw [husp, haddr])
      exact ⟨u, hu, hback, hureg.trans hcell, huregs, hupc, hucells⟩
  refine ⟨t, u, ht, hu, (hregs.trans huregs).of_eq ?_, ?_, ?_⟩
  · simpa using ⟨husp, hureg, husp⟩
  · rw [hupc, hpc, BitVec.add_assoc]
    rfl
  · rw [hucells, hcell]

/-! ### CALL and RETURN, COMPARE and the conditional jumps -/

/-- Settles O45: the RETURN reads the byte the CALL stored and moves SP up by the one the CALL moved it down. -/
theorem callThenReturnResumesAfterTheCall : Obligations.CallThenReturnResumesAfterTheCall := by
  obtain ⟨hcall, -⟩ := callPushesReturnAddressAndJumps
  obtain ⟨hret, -⟩ := returnJumpsToTopOfStack
  intro r s hp h
  have hlt := s.sp.isLt
  obtain ⟨t, ht, hsp, haddr, -, hcell, -⟩ := hcall r s hp h
  refine ⟨t, ht, fun u husp hucell => ?_⟩
  obtain ⟨w, hw, hwpc, hwsp, -⟩ := hret u (by rw [husp, hsp]; omega)
  refine ⟨w, hw, ?_, BitVec.eq_of_toNat_eq (by rw [hwsp, husp, hsp, haddr])⟩
  rw [hwpc, toNat_zext9, hucell, hsp, hcell]

/-- Settles O46: the flag COMPARE leaves is EQ exactly when its operands were equal. -/
theorem compareDecidesTheConditionalJumps : Obligations.CompareDecidesTheConditionalJumps := by
  intro a b s
  refine ⟨_, exec_compare a b s, fun u r hu => ?_⟩
  have hflag : u.flag = .eq ↔ s.reg a = s.reg b := by
    obtain ⟨heq, -⟩ := compareFlag_iff (s.reg a) (s.reg b)
    rw [hu, advance_flag, setFlag_flag, heq, BitVec.toNat_inj]
  refine ⟨fun h => ?_, fun h => ?_⟩
  · exact ⟨exec_jumpIfEqual_of_eq r (hflag.mpr h), exec_jumpIfNotEqual_of_eq r (hflag.mpr h)⟩
  · exact ⟨exec_jumpIfEqual_of_ne r (mt hflag.mp h), exec_jumpIfNotEqual_of_ne r (mt hflag.mp h)⟩

end Sys2Proof.Machine
end

section
/-! What is observed of a run, terminal state by terminal state and step by step; then the statements about the reset
input and the end of a run. -/

namespace Sys2Proof.Machine

/-! ### The reset input (R240) -/

/-- Settles O49: a cycle with `rst` is the block reset, and one without is a step, which no terminal state has. -/
theorem resetIsTheOnlyWayOutOfTerminalStates : Obligations.ResetIsTheOnlyWayOutOfTerminalStates :=
  ⟨fun _ => ⟨rfl, rfl, rfl⟩,
    fun s => ⟨resetBlock_life s, resetBlock_pc s, fun _ => rfl, fetchByte_of_le s.resetBlock (Nat.zero_le 255)⟩,
    fun _ t h => step_ne_next_of_terminal h t, fun _ => rfl⟩

/-! ### The final observation (R249) -/

/-- A terminal state is observed under any fuel. -/
theorem observe_of_terminal {s : State} (h : s.Terminal) (fuel : Nat) : observe fuel s = some s.observation := by
  cases hl : s.life with
  | running => exact absurd hl h
  | halted | faulted => cases fuel <;> simp only [observe, hl]

/-- Without fuel a running block is not observed. -/
theorem observe_zero_of_running {s : State} (h : s.life = .running) : observe 0 s = none := by
  simp only [observe, h]

/-- A step costs one unit of fuel. -/
theorem observe_succ_of_step {s t : State} (h : step s = .next t) (k : Nat) : observe (k + 1) s = observe k t := by
  obtain ⟨hl, -⟩ := step_next_cases h
  simp only [observe, hl, h]

/-- What is observed is the state itself, if it is terminal, or what is observed after a step. -/
theorem observe_cases {fuel : Nat} {s : State} {o : Observation} (h : observe fuel s = some o) :
    (s.Terminal ∧ o = s.observation) ∨ ∃ k t, fuel = k + 1 ∧ step s = .next t ∧ observe k t = some o := by
  by_cases hl : s.life = .running
  · cases fuel with
    | zero => cases (observe_zero_of_running hl).symm.trans h
    | succ k =>
      obtain ⟨t, ht⟩ := exists_step_eq_next hl
      exact .inr ⟨k, t, rfl, ht, (observe_succ_of_step ht k).symm.trans h⟩
  · rw [observe_of_terminal hl] at h
    exact .inl ⟨hl, (Option.some.inj h).symm⟩

/-- A step and a run after it are a run. -/
theorem Reaches.head {s t u : State} (h : Sys2Proof.Machine.step s = .next t) (hrun : Reaches t u) : Reaches s u :=
  hrun.induct (.step .here h) fun _ _ => .step

theorem exists_terminal_of_observe {fuel : Nat} {s : State} {o : Observation} (h : observe fuel s = some o) :
    ∃ t, Reaches s t ∧ t.Terminal ∧ o = t.observation := by
  induction fuel generalizing s with
  | zero =>
    obtain ⟨ht, ho⟩ | ⟨k, _, hk, -⟩ := observe_cases h
    · exact ⟨s, .here, ht, ho⟩
    · cases hk
  | succ fuel ih =>
    obtain ⟨ht, ho⟩ | ⟨k, t, hk, hstep, ho⟩ := observe_cases h
    · exact ⟨s, .here, ht, ho⟩
    · cases hk
      obtain ⟨u, hu, hterminal, hobs⟩ := ih ho
      exact ⟨u, hu.head hstep, hterminal, hobs⟩

/-- What is observed of a state the run reaches is observed of the run, with fuel for the steps that lead there. -/
theorem exists_observe_of_reaches {s t : State} {o : Observation} (h : Reaches s t) {k : Nat}
    (ho : observe k t = some o) : ∃ fuel, observe fuel s = some o := by
  induction h generalizing k with
  | here => exact ⟨k, ho⟩
  | step _ hstep ih => exact ih ((observe_succ_of_step hstep k).trans ho)

theorem observe_mono {fuel : Nat} {s : State} {o : Observation} (h : observe fuel s = some o) (more : Nat) :
    observe (fuel + more) s = some o := by
  induction fuel generalizing s with
  | zero =>
    obtain ⟨ht, rfl⟩ | ⟨k, _, hk, -⟩ := observe_cases h
    · exact observe_of_terminal ht _
    · cases hk
  | succ fuel ih =>
    obtain ⟨ht, rfl⟩ | ⟨k, t, hk, hstep, ho⟩ := observe_cases h
    · exact observe_of_terminal ht _
    · cases hk
      rw [Nat.add_right_comm, observe_succ_of_step hstep, ih ho]

/-- Settles O53: the first and last part by induction on the fuel, the second by induction on the run. -/
theorem observationIsOfATerminalState : Obligations.ObservationIsOfATerminalState :=
  ⟨fun _ _ _ => exists_terminal_of_observe, fun _ _ h ht => exists_observe_of_reaches h (observe_of_terminal ht 0),
    fun _ more _ _ h => observe_mono h more⟩

/-- A block whose step leads back to itself is never observed. -/
theorem observe_of_step_self {s : State} (h : step s = .next s) (fuel : Nat) : observe fuel s = none := by
  induction fuel with
  | zero => exact observe_zero_of_running (step_next_cases h).1
  | succ k ih => rw [observe_succ_of_step h, ih]

/-- Settles O47: the JUMP answers the very state it began in. -/
theorem jumpToItselfNeverEnds : Obligations.JumpToItselfNeverEnds := by
  obtain ⟨-, hruns, -⟩ := jumpGoesToRegister
  intro s r h hself
  have hsame : s.jumpTo (s.reg r) = s := by rw [State.jumpTo, hself]
  exact observe_of_step_self (by rw [hruns r s h, exec_jump, hsame])

end Sys2Proof.Machine
end

section
/-! The transactions of a step, and a step over another memory that agrees on the cells among its reads; then the
statements about the memory port and the output port. -/

namespace Sys2Proof

/-! ### The decoder on other bytes after the ones it reads -/

/-- The second answer says what the first says, whatever bytes are left after an instruction. -/
def Decoded.SameAnswer : Decoded → Decoded → Prop
  | .ok i _, d => ∃ rest, d = .ok i rest
  | .truncated k, d => d = .truncated k
  | .unknownOpcode b, d => d = .unknownOpcode b
  | .badRegister r, d => d = .badRegister r

theorem Decoded.SameAnswer.refl (d : Decoded) : d.SameAnswer d := by
  cases d with
  | ok i rest => exact ⟨rest, rfl⟩
  | truncated | unknownOpcode | badRegister => rfl

/-- The decoder answers an instruction or it does not. -/
theorem Decoded.ok_or_reject (d : Decoded) : (∃ i rest, d = .ok i rest) ∨ ∀ i rest, d ≠ .ok i rest := by
  cases d with
  | ok i rest => exact .inl ⟨i, rest, rfl⟩
  | truncated | unknownOpcode | badRegister => exact .inr nofun

/-- Where the decoder answers no instruction, the same answer is an equal one. -/
theorem Decoded.SameAnswer.eq_of_reject {d d' : Decoded} (h : d.SameAnswer d') (hd : ∀ i rest, d ≠ .ok i rest) :
    d' = d := by
  cases d with
  | ok i rest => exact absurd rfl (hd i rest)
  | truncated | unknownOpcode | badRegister => exact h

/-- The operand stage reads the operand bytes of the format and how many bytes there are (R75, R76). -/
theorem decodeOperands_sameAnswer {o : Op} {operands operands' : List Byte}
    (hlen : operands'.length = operands.length)
    (htake : operands'.take o.format.operandCount = operands.take o.format.operandCount) :
    (decodeOperands o operands).SameAnswer (decodeOperands o operands') := by
  by_cases hshort : operands.length < o.format.operandCount
  · rw [decodeOperands_of_short hshort, decodeOperands_of_short (hlen ▸ hshort), hlen]
    rfl
  · obtain ⟨i, rfl, rest, rfl⟩ := exists_operandBytes_append o (Nat.le_of_not_lt hshort)
    rw [← length_operandBytes i, List.take_left, length_operandBytes] at htake
    rw [← List.take_append_drop i.op.format.operandCount operands', htake, decodeOperands_append,
      decodeOperands_append]
    cases i.firstBadRegister with
    | none => exact ⟨_, rfl⟩
    | some r => rfl

end Sys2Proof

namespace Sys2Proof.Machine

/-! ### The instruction-byte reads (R75) -/

/-- The bytes the decoder is given are none, or begin with an unknown opcode byte, or with an operation's. -/
theorem fetchBytes_cases (s : State) :
    s.fetchBytes = [] ∨ (∃ b rest, s.fetchBytes = b :: rest ∧ ∀ o, opcodeByte o ≠ b) ∨
      ∃ o operands, s.fetchBytes = opcodeByte o :: operands := by
  cases hf : s.fetchBytes with
  | nil => exact .inl rfl
  | cons b rest =>
    cases hb : opOfByte opcodeByte b with
    | none => exact .inr (.inl ⟨b, rest, rfl, opOfByte_eq_none.mp hb⟩)
    | some o => exact .inr (.inr ⟨o, rest, by rw [opOfByte_eq_some hb]⟩)

theorem fetchCount_of_nil {s : State} (h : s.fetchBytes = []) : s.fetchCount = 0 := by
  simp only [State.fetchCount, h]

theorem fetchCount_of_unknown {s : State} {b : Byte} {rest : List Byte} (h : s.fetchBytes = b :: rest)
    (hb : ∀ o, opcodeByte o ≠ b) : s.fetchCount = 1 := by
  simp only [State.fetchCount, h, opOfByte_eq_none.mpr hb]

theorem fetchCount_of_opcode {s : State} {o : Op} {operands : List Byte}
    (h : s.fetchBytes = opcodeByte o :: operands) :
    s.fetchCount = 1 + min o.format.operandCount operands.length := by
  simp only [State.fetchCount, h, opOfByte_opcodeByte]

/-- Only bytes that exist are read, and the opcode byte is if there is one. -/
theorem fetchCount_bounds (s : State) :
    s.fetchCount ≤ s.fetchBytes.length ∧ (s.fetchBytes ≠ [] → 0 < s.fetchCount) := by
  obtain hf | ⟨b, rest, hf, hb⟩ | ⟨o, operands, hf⟩ := fetchBytes_cases s
  · exact ⟨(fetchCount_of_nil hf).trans_le (Nat.zero_le _), fun hne => absurd hf hne⟩
  · rw [fetchCount_of_unknown hf hb, hf, List.length_cons]
    exact ⟨by omega, fun _ => Nat.one_pos⟩
  · rw [fetchCount_of_opcode hf, hf, List.length_cons]
    exact ⟨by omega, fun _ => by omega⟩

theorem length_fetchEvents_le (s : State) : s.fetchEvents.length ≤ 3 := by
  obtain ⟨hle, -⟩ := fetchCount_bounds s
  have hlen := length_fetchBytes s
  rw [State.fetchEvents, List.length_map, List.length_range]
  omega

theorem isFetch_of_mem_fetchEvents {s : State} {e : PortEvent} (h : e ∈ s.fetchEvents) : e.isFetch = true := by
  obtain ⟨k, -, rfl⟩ := List.mem_map.mp h
  rfl

/-! ### The transactions of a step -/

theorem portEvents_of_ok {s : State} {i : Instr} {rest : List Byte} (hl : s.life = .running)
    (h : s.decodeAtPc = .ok i rest) : s.portEvents = s.fetchEvents ++ dataEvents i s := by
  simp only [State.portEvents, hl, h]

/-- Where the decoder answers no instruction, its reads are all the transactions. -/
theorem portEvents_of_reject {s : State} (hl : s.life = .running) (h : ∀ i rest, s.decodeAtPc ≠ .ok i rest) :
    s.portEvents = s.fetchEvents := by
  cases hd : s.decodeAtPc with
  | ok i rest => exact absurd hd (h i rest)
  | truncated | unknownOpcode | badRegister => simp only [State.portEvents, hl, hd]

theorem portEvents_of_terminal {s : State} (h : s.Terminal) : s.portEvents = [] := by
  cases hl : s.life with
  | running => exact absurd hl h
  | halted | faulted => simp only [State.portEvents, hl]

/-- An instruction makes at most one transaction after its bytes have been read. -/
theorem dataEvents_cases (i : Instr) (s : State) :
    dataEvents i s = [] ∨ ∃ e, dataEvents i s = [e] ∧ e.isFetch = false := by
  cases i with
  | halt | loadImmediate | add | mul | compare | jump | jumpIfEqual | jumpIfNotEqual => exact .inl rfl
  | ret => exact .inr ⟨_, rfl, rfl⟩
  | printReg | pop =>
    simp only [dataEvents]
    split
    · exact .inl rfl
    · exact .inr ⟨_, rfl, rfl⟩
  | push =>
    simp only [dataEvents]
    split
    · exact .inr ⟨_, rfl, rfl⟩
    · exact .inl rfl
  | call =>
    simp only [dataEvents]
    split
    · split
      · exact .inl rfl
      · exact .inr ⟨_, rfl, rfl⟩
    · exact .inl rfl

theorem dataEvents_printReg (r : Reg) (s : State) :
    dataEvents (.printReg (byteOfReg r)) s = [.output (s.reg r)] := by
  simp only [dataEvents, regOfByte_byteOfReg]

theorem dataEvents_push {s : State} (r : Reg) (h : s.sp.toNat ≠ 0) :
    dataEvents (.push (byteOfReg r)) s = [.dataWrite s.pushAddress ((s.setSp s.pushAddress).reg r)] := by
  simp only [dataEvents, regOfByte_byteOfReg, decSp_of_pos h, sp_setSp]

theorem dataEvents_push_of_zero {s : State} (r : Reg) (h : s.sp.toNat = 0) :
    dataEvents (.push (byteOfReg r)) s = [] := by
  simp only [dataEvents, regOfByte_byteOfReg, decSp_of_zero h]

theorem dataEvents_call {s : State} (r : Reg) (hp : s.pc.toNat + 2 ≤ 255) (h : s.sp.toNat ≠ 0) :
    dataEvents (.call (byteOfReg r)) s = [.dataWrite s.pushAddress (BitVec.ofNat 8 (s.pc.toNat + 2))] := by
  simp only [dataEvents, regOfByte_byteOfReg, decSp_of_pos h, if_neg (Nat.not_lt.mpr hp), sp_setSp]

theorem dataEvents_call_of_returnRange {s : State} (r : Reg) (hp : 255 < s.pc.toNat + 2) :
    dataEvents (.call (byteOfReg r)) s = [] := by
  obtain ⟨-, hd⟩ | ⟨-, hd⟩ := decSp_cases s <;> simp only [dataEvents, regOfByte_byteOfReg, hd, if_pos hp]

theorem dataEvents_call_of_zero {s : State} (r : Reg) (h : s.sp.toNat = 0) :
    dataEvents (.call (byteOfReg r)) s = [] := by
  simp only [dataEvents, regOfByte_byteOfReg, decSp_of_zero h]

theorem dataEvents_pop (r : Reg) (s : State) :
    dataEvents (.pop (byteOfReg r)) s = [.dataRead s.sp (s.readByte s.sp)] := by
  simp only [dataEvents, regOfByte_byteOfReg]

/-! ### What transactions do to memory and the output list -/

theorem Memory.replay_append (m : Memory) (es ds : List PortEvent) :
    m.replay (es ++ ds) = (m.replay es).replay ds := by
  induction es generalizing m with
  | nil => rfl
  | cons e es ih => cases e <;> exact ih _

theorem outputsOf_append (es ds : List PortEvent) : outputsOf (es ++ ds) = outputsOf es ++ outputsOf ds := by
  induction es with
  | nil => rfl
  | cons e es ih =>
    cases e with
    | output v => exact congrArg (v :: ·) ih
    | fetch | dataRead | dataWrite => exact ih

/-- Reads of instruction bytes write nothing and emit nothing. -/
theorem replay_and_outputsOf_of_fetches {es : List PortEvent} (h : ∀ e ∈ es, e.isFetch = true) (m : Memory) :
    m.replay es = m ∧ outputsOf es = [] := by
  induction es with
  | nil => exact ⟨rfl, rfl⟩
  | cons e es ih =>
    obtain ⟨he, hes⟩ := List.forall_mem_cons.mp h
    cases e with
    | fetch => exact ih hes
    | dataRead | dataWrite | output => cases he

theorem replay_fetchEvents (m : Memory) (s : State) : m.replay s.fetchEvents = m :=
  (replay_and_outputsOf_of_fetches (fun _ => isFetch_of_mem_fetchEvents) m).1

theorem outputsOf_fetchEvents (s : State) : outputsOf s.fetchEvents = [] :=
  (replay_and_outputsOf_of_fetches (fun _ => isFetch_of_mem_fetchEvents (s := s)) []).2

/-- Only PUSH and CALL make a data write. -/
theorem replay_dataEvents {i : Instr} (hpush : i.op ≠ .push) (hcall : i.op ≠ .call) (m : Memory) (s : State) :
    m.replay (dataEvents i s) = m := by
  cases i with
  | push => exact absurd rfl hpush
  | call => exact absurd rfl hcall
  | printReg | pop => simp only [dataEvents]; split <;> rfl
  | halt | loadImmediate | add | mul | compare | jump | jumpIfEqual | jumpIfNotEqual | ret => rfl

/-- Only PRINT_REG makes an output event. -/
theorem outputsOf_dataEvents {i : Instr} (hprint : i.op ≠ .printReg) (s : State) :
    outputsOf (dataEvents i s) = [] := by
  cases i with
  | printReg => exact absurd rfl hprint
  | push | pop => simp only [dataEvents]; split <;> rfl
  | call =>
    simp only [dataEvents]
    split
    · split <;> rfl
    · rfl
  | halt | loadImmediate | add | mul | compare | jump | jumpIfEqual | jumpIfNotEqual | ret => rfl

/-! ### The same state over another memory -/

/-- The state over another memory. -/
def State.withMem (s : State) (m : Memory) : State := { s with mem := m }

@[simp] theorem flag_withMem (s : State) (m : Memory) : (s.withMem m).flag = s.flag := rfl

/-- The other memory agrees on the cells that some transactions read. -/
def AgreeOnReads (s : State) (m : Memory) (es : List PortEvent) : Prop :=
  ∀ e ∈ es, ∀ a, e.readAddress = some a → m.read a.toNat = s.mem.read a.toNat

theorem AgreeOnReads.append {s : State} {m : Memory} {es ds : List PortEvent} (h : AgreeOnReads s m (es ++ ds)) :
    AgreeOnReads s m es ∧ AgreeOnReads s m ds :=
  List.forall_mem_append.mp h

/-- A memory that agrees on the instruction-byte reads agrees on each cell read, by its number. -/
theorem AgreeOnReads.read_fetched {s : State} {m : Memory} (h : AgreeOnReads s m s.fetchEvents) {k : Nat}
    (hk : k < s.fetchCount) : m.read (s.pc.toNat + k) = s.mem.read (s.pc.toNat + k) := by
  have haddr : (BitVec.ofNat 8 (s.pc.toNat + k)).toNat = s.pc.toNat + k := by
    obtain ⟨hle, -⟩ := fetchCount_bounds s
    rw [length_fetchBytes] at hle
    rw [BitVec.toNat_ofNat]
    omega
  rw [← haddr]
  exact h _ (List.mem_map.mpr ⟨k, List.mem_range.mpr hk, rfl⟩) _ rfl

/-- Over such a memory the decoder is given as many bytes, and the ones it reads are the same. -/
theorem AgreeOnReads.fetchBytes {s : State} {m : Memory} (h : AgreeOnReads s m s.fetchEvents) :
    (s.withMem m).fetchBytes.length = s.fetchBytes.length ∧
      (s.withMem m).fetchBytes.take s.fetchCount = s.fetchBytes.take s.fetchCount := by
  refine ⟨(length_fetchBytes _).trans (length_fetchBytes s).symm, ?_⟩
  rw [fetchBytes_eq_map, fetchBytes_eq_map, ← List.map_take, ← List.map_take]
  refine List.map_congr_left fun k hk => h.read_fetched ?_
  rw [List.take_range, List.mem_range] at hk
  omega

/-- Over such a memory the decoder gives the same answer. -/
theorem AgreeOnReads.decodeAtPc {s : State} {m : Memory} (h : AgreeOnReads s m s.fetchEvents) :
    s.decodeAtPc.SameAnswer (s.withMem m).decodeAtPc := by
  obtain ⟨hlen, htake⟩ := h.fetchBytes
  rw [State.decodeAtPc, State.decodeAtPc]
  obtain hf | ⟨b, rest, hf, hb⟩ | ⟨o, operands, hf⟩ := fetchBytes_cases s
  · rw [hf] at hlen ⊢
    rw [List.length_eq_zero_iff.mp hlen]
    exact .refl _
  · rw [fetchCount_of_unknown hf hb, hf] at htake
    rw [hf] at hlen ⊢
    cases hf' : (s.withMem m).fetchBytes with
    | nil => rw [hf'] at hlen; cases hlen
    | cons b' rest' =>
      rw [hf'] at htake
      cases htake
      rw [decode_of_unknown hb, decode_of_unknown hb]
      exact .refl _
  · rw [fetchCount_of_opcode hf, hf] at htake
    rw [hf] at hlen ⊢
    cases hf' : (s.withMem m).fetchBytes with
    | nil => rw [hf'] at hlen; cases hlen
    | cons b' operands' =>
      rw [hf', Nat.add_comm, List.take_succ_cons, List.take_succ_cons] at htake
      obtain ⟨rfl, htail⟩ := List.cons.inj htake
      rw [hf'] at hlen
      have hlen : operands'.length = operands.length := Nat.succ.inj hlen
      rw [← List.take_eq_take_min, ← hlen, ← List.take_eq_take_min] at htail
      rw [decode_opcodeByte_cons, decode_opcodeByte_cons]
      exact decodeOperands_sameAnswer hlen htail

/-- Over such a memory the opcode byte of a fault record is the same. -/
theorem AgreeOnReads.opcodeAtPc {s : State} {m : Memory} (h : AgreeOnReads s m s.fetchEvents) :
    (s.withMem m).opcodeAtPc = s.opcodeAtPc := by
  by_cases hpc : s.pc.toNat ≤ 255
  · obtain ⟨-, hpos⟩ := fetchCount_bounds s
    have hne : s.fetchBytes ≠ [] := List.ne_nil_of_length_pos (by rw [length_fetchBytes]; omega)
    calc (s.withMem m).opcodeAtPc = m.read s.pc.toNat := if_pos hpc
      _ = s.mem.read s.pc.toNat := h.read_fetched (hpos hne)
      _ = s.opcodeAtPc := (if_pos hpc).symm
  · exact (if_neg (c := (s.withMem m).pc.toNat ≤ 255) hpc).trans (if_neg hpc).symm

theorem raise_withMem {s : State} {m : Memory} (h : (s.withMem m).opcodeAtPc = s.opcodeAtPc) (c : Cause) (d : Nat) :
    (s.withMem m).raise c d = (s.raise c d).withMem m := by
  simp only [State.raise, h]
  rfl

/-- If what follows the operand answers the same over the other memory, so does the whole. -/
theorem withReg_withMem {s : State} {m : Memory} (h : (s.withMem m).opcodeAtPc = s.opcodeAtPc) (b : Byte)
    {k k' : Reg → Host.Outcome State Fault Refusal} (hk : ∀ r, k' r = mapNext (·.withMem m) (k r)) :
    withReg b (s.withMem m) k' = mapNext (·.withMem m) (withReg b s k) := by
  unfold withReg
  cases regOfByte b with
  | none => exact congrArg Host.Outcome.next (raise_withMem h _ _)
  | some r => exact hk r

theorem exists_reg_of_wellFormed {i : Instr} (hi : i.wellFormed = true) {b : Byte} (hb : b ∈ i.regOperands) :
    ∃ r, byteOfReg r = b := by
  obtain ⟨r, -, hr⟩ := regOfByte_of_le (le_seven_of_wellFormed hi hb)
  exact ⟨r, hr⟩

/-- Over a memory that agrees on its reads an instruction answers the same and makes the same writes (R37). -/
theorem exec_withMem {i : Instr} {s : State} {m : Memory} (hi : i.wellFormed = true)
    (hop : (s.withMem m).opcodeAtPc = s.opcodeAtPc) (hreads : AgreeOnReads s m (dataEvents i s)) :
    exec i (s.withMem m) = mapNext (·.withMem (m.replay (dataEvents i s))) (exec i s) := by
  cases i with
  | halt => rfl
  | loadImmediate | jump => exact withReg_withMem hop _ fun _ => rfl
  | printReg =>
    rw [replay_dataEvents (by simp [Instr.op]) (by simp [Instr.op])]
    exact withReg_withMem hop _ fun _ => rfl
  | add | mul | compare => exact withReg_withMem hop _ fun _ => withReg_withMem hop _ fun _ => rfl
  | jumpIfEqual | jumpIfNotEqual => 
    refine withReg_withMem hop _ fun r => ?_
    rw [flag_withMem]
    cases s.flag.isEq <;> rfl
  | push src =>
    obtain ⟨r, rfl⟩ := exists_reg_of_wellFormed hi (b := src) (by simp [Instr.regOperands])
    by_cases hsp : s.sp.toNat = 0
    · rw [dataEvents_push_of_zero r hsp, exec_push_of_zero r hsp, exec_push_of_zero (s := s.withMem m) r hsp]
      exact congrArg Host.Outcome.next (raise_withMem hop _ _)
    · rw [dataEvents_push r hsp, exec_push r hsp, exec_push (s := s.withMem m) r hsp]
      rfl
  | call target =>
    obtain ⟨r, rfl⟩ := exists_reg_of_wellFormed hi (b := target) (by simp [Instr.regOperands])
    by_cases hp : 255 < s.pc.toNat + 2
    · rw [dataEvents_call_of_returnRange r hp, exec_call_of_returnRange r hp,
        exec_call_of_returnRange (s := s.withMem m) r hp]
      exact congrArg Host.Outcome.next (raise_withMem hop _ _)
    · have hle := Nat.le_of_not_lt hp
      by_cases hsp : s.sp.toNat = 0
      · rw [dataEvents_call_of_zero r hsp, exec_call_of_zero r hle hsp,
          exec_call_of_zero (s := s.withMem m) r hle hsp]
        exact congrArg Host.Outcome.next (raise_withMem hop _ _)
      · rw [dataEvents_call r hle hsp, exec_call r hle hsp, exec_call (s := s.withMem m) r hle hsp]
        rfl
  | pop dest =>
    obtain ⟨r, rfl⟩ := exists_reg_of_wellFormed hi (b := dest) (by simp [Instr.regOperands])
    have hread : (s.withMem m).readByte (s.withMem m).sp = s.readByte s.sp := by
      rw [dataEvents_pop] at hreads
      exact hreads _ (List.mem_singleton_self _) _ rfl
    rw [replay_dataEvents (by simp [Instr.op]) (by simp [Instr.op])]
    by_cases hsp : (s.setReg r (s.readByte s.sp)).sp.toNat = 255
    · rw [exec_pop_of_top r hsp, exec_pop_of_top (s := s.withMem m) r (by rw [hread]; exact hsp)]
      exact congrArg Host.Outcome.next (raise_withMem hop _ _)
    · rw [exec_pop r hsp, exec_pop (s := s.withMem m) r (by rw [hread]; exact hsp), hread]
      rfl
  | ret =>
    have hread : (s.withMem m).readByte (s.withMem m).sp = s.readByte s.sp :=
      hreads _ (List.mem_singleton_self _) _ rfl
    rw [replay_dataEvents (by simp [Instr.op]) (by simp [Instr.op])]
    by_cases hsp : s.sp.toNat = 255
    · rw [exec_ret_of_top hsp, exec_ret_of_top (s := s.withMem m) hsp]
      exact congrArg Host.Outcome.next (raise_withMem hop _ _)
    · rw [exec_ret hsp, exec_ret (s := s.withMem m) hsp, hread]
      rfl

/-- Over a memory that agrees on the bytes it read, the decoder's fault is the same. -/
theorem step_withMem_of_reject {s t : State} {m : Memory} (hl : s.life = .running)
    (hop : (s.withMem m).opcodeAtPc = s.opcodeAtPc) (hreject : ∀ i rest, s.decodeAtPc ≠ .ok i rest)
    (hd : (s.withMem m).decodeAtPc = s.decodeAtPc) (h : step s = .next t) :
    step (s.withMem m) = .next (t.withMem m) := by
  have hl' : (s.withMem m).life = .running := hl
  obtain ⟨-, ⟨i, rest, hok, -⟩ | ⟨k, hk, rfl⟩ | ⟨b, hb, rfl⟩ | ⟨r, hr, rfl⟩⟩ := step_next_cases h
  · exact absurd hok (hreject i rest)
  · rw [step_of_truncated hl' (hd.trans hk), raise_withMem hop]
    rfl
  · rw [step_of_unknownOpcode hl' (hd.trans hb), raise_withMem hop]
  · rw [step_of_badRegister hl' (hd.trans hr), raise_withMem hop]

/-- Settles O41: the decoder and the instruction each depend on their own reads. -/
theorem unreadCellsDoNotMatter : Obligations.UnreadCellsDoNotMatter := by
  intro s t m h hreads
  change step (s.withMem m) = .next (t.withMem (m.replay s.portEvents))
  obtain ⟨hl, -⟩ := step_next_cases h
  obtain ⟨i, rest, hd⟩ | hreject := s.decodeAtPc.ok_or_reject
  · rw [portEvents_of_ok hl hd] at hreads ⊢
    obtain ⟨hfetch, hdata⟩ := AgreeOnReads.append hreads
    obtain ⟨hwf, -⟩ := decodeAtPc_ok hd
    obtain ⟨rest', hd'⟩ : ∃ rest', (s.withMem m).decodeAtPc = .ok i rest' := by
      have hsame := hfetch.decodeAtPc
      rw [hd] at hsame
      exact hsame
    rw [step_of_ok (s := s.withMem m) hl hd', exec_withMem hwf hfetch.opcodeAtPc hdata, ← step_of_ok hl hd, h,
      Memory.replay_append, replay_fetchEvents]
    rfl
  · rw [portEvents_of_reject hl hreject] at hreads ⊢
    rw [replay_fetchEvents]
    have hfetch : AgreeOnReads s m s.fetchEvents := hreads
    exact step_withMem_of_reject hl hfetch.opcodeAtPc hreject (hfetch.decodeAtPc.eq_of_reject hreject) h

/-! ### The bounds and the account of a step -/

/-- The transactions of a step are reads of instruction bytes and at most one more (R37, R51). -/
theorem portEvents_eq_append (s : State) : ∃ fetches data, s.portEvents = fetches ++ data ∧ fetches.length ≤ 3 ∧
    (∀ e ∈ fetches, e.isFetch = true) ∧ data.length ≤ 1 ∧ ∀ e ∈ data, e.isFetch = false := by
  by_cases hl : s.life = .running
  · obtain ⟨i, rest, hd⟩ | hreject := s.decodeAtPc.ok_or_reject
    · refine ⟨_, _, portEvents_of_ok hl hd, length_fetchEvents_le s, fun _ => isFetch_of_mem_fetchEvents, ?_⟩
      obtain he | ⟨e, he, hfetch⟩ := dataEvents_cases i s
      · simp [he]
      · simp [he, hfetch]
    · refine ⟨_, [], ?_, length_fetchEvents_le s, fun _ => isFetch_of_mem_fetchEvents, by simp⟩
      rw [List.append_nil]
      exact portEvents_of_reject hl hreject
  · exact ⟨[], [], portEvents_of_terminal hl, by simp⟩

theorem eq_fetch_of_isFetch {e : PortEvent} (h : e.isFetch = true) : ∃ a v, e = .fetch a v := by
  cases e with
  | fetch a v => exact ⟨a, v, rfl⟩
  | dataRead | dataWrite | output => cases h

/-- Of any kind of transaction other than instruction fetches a step makes at most one. -/
theorem length_filter_portEvents_le_one (s : State) {p : PortEvent → Bool} (hp : ∀ a v, p (.fetch a v) = false) :
    (s.portEvents.filter p).length ≤ 1 := by
  obtain ⟨fetches, data, he, -, hfetch, hdata, -⟩ := portEvents_eq_append s
  have hnone : fetches.filter p = [] := List.filter_eq_nil_iff.mpr fun e hmem => by
    obtain ⟨a, v, rfl⟩ := eq_fetch_of_isFetch (hfetch e hmem)
    simp [hp]
  rw [he, List.filter_append, hnone, List.nil_append]
  exact (List.length_filter_le p data).trans hdata

theorem length_filter_isFetch_portEvents_le (s : State) : (s.portEvents.filter PortEvent.isFetch).length ≤ 3 := by
  obtain ⟨fetches, data, he, hlen, -, -, hdata⟩ := portEvents_eq_append s
  have hnone : data.filter PortEvent.isFetch = [] :=
    List.filter_eq_nil_iff.mpr fun e hmem => by simp [hdata e hmem]
  rw [he, List.filter_append, hnone, List.append_nil]
  exact (List.length_filter_le _ fetches).trans hlen

/-- What an instruction adds to the output list is its output events. -/
theorem exec_out {i : Instr} {s t : State} (hi : i.wellFormed = true) (h : exec i s = .next t) :
    t.out = s.out ++ outputsOf (dataEvents i s) := by
  by_cases hprint : i.op = .printReg
  · cases i with
    | printReg src =>
      obtain ⟨r, rfl⟩ := exists_reg_of_wellFormed hi (b := src) (by simp [Instr.regOperands])
      rw [exec_printReg] at h
      cases h
      rw [dataEvents_printReg]
      rfl
    | _ => cases hprint
  · rw [outputsOf_dataEvents hprint, List.append_nil]
    obtain hc | ⟨c, d, rfl, -⟩ := exec_next_cases h
    · obtain hout | ⟨r, rfl, -⟩ := completes_out hc
      · exact hout
      · exact absurd rfl hprint
    · rfl

/-- What a step adds to the output list is its output events. -/
theorem step_out {s t : State} (h : step s = .next t) : t.out = s.out ++ outputsOf s.portEvents := by
  obtain ⟨hl, -⟩ := step_next_cases h
  obtain ⟨i, rest, hd⟩ | hreject := s.decodeAtPc.ok_or_reject
  · obtain ⟨hwf, -⟩ := decodeAtPc_ok hd
    rw [step_of_ok hl hd] at h
    rw [portEvents_of_ok hl hd, outputsOf_append, outputsOf_fetchEvents, List.nil_append]
    exact exec_out hwf h
  · rw [portEvents_of_reject hl hreject, outputsOf_fetchEvents, List.append_nil]
    obtain ⟨-, ⟨i, rest, hd, -⟩ | ⟨k, -, rfl⟩ | ⟨b, -, rfl⟩ | ⟨r, -, rfl⟩⟩ := step_next_cases h
    · exact absurd hd (hreject i rest)
    · rfl
    · rfl
    · rfl

/-- What a step makes of memory is its writes: `unreadCellsDoNotMatter` at the memory the state has. -/
theorem step_mem {s t : State} (h : step s = .next t) : t.mem = s.mem.replay s.portEvents := by
  have hsame := unreadCellsDoNotMatter s t s.mem h fun _ _ _ _ => rfl
  exact congrArg State.mem (Host.Outcome.next.inj (h.symm.trans hsame))

/-- Settles O40: the bounds by the shape of the transactions, the account by what a step makes of memory and of the
output list. -/
theorem portTransactionsAreBoundedAndComplete : Obligations.PortTransactionsAreBoundedAndComplete := by
  refine ⟨fun s => ⟨length_filter_isFetch_portEvents_le s, ?_, ?_, ?_⟩, fun s t h => ⟨step_mem h, step_out h⟩⟩
  · exact length_filter_portEvents_le_one s fun _ _ => rfl
  · exact length_filter_portEvents_le_one s fun _ _ => rfl
  · exact length_filter_portEvents_le_one s fun _ _ => rfl

end Sys2Proof.Machine
end

section
/-! What comments, blanks, literals and lines load as, line by line and file by file; then the statement about the
program file (spec/30_encoding.md R85, spec/70_reset_and_hazards.md R245, R246). -/

namespace Sys2Proof.Machine

/-! ### Lines (R85) -/

/-- What a line loads as depends on what is left after stripping its comment. -/
theorem loadLine_congr {line line' : List Char} (h : stripComment line' = stripComment line) :
    loadLine line' = loadLine line := by
  rw [loadLine, loadLine, h]

theorem loadLine_append_comment {line : List Char} (h : '#' ∉ line) (comment : List Char) :
    loadLine (line ++ '#' :: comment) = loadLine line :=
  loadLine_congr ((stripComment_append_comment h comment).trans (stripComment_of_notMem h).symm)

/-- Blanks hold no comment sign. -/
theorem hash_notMem_blanks {blanks : List Char} (h : ∀ c ∈ blanks, isBlankChar c = true) : '#' ∉ blanks :=
  fun hmem => absurd (h _ hmem) (by decide)

theorem loadLine_blanks {blanks : List Char} (h : ∀ c ∈ blanks, isBlankChar c = true) : loadLine blanks = .skip :=
  loadLine_of_blank (by rw [stripComment_of_notMem (hash_notMem_blanks h), trimBlanks_blanks h])

/-- Stripping takes the blanks around a literal away and leaves the literal. -/
theorem trimBlanks_stripComment_literal {before after : List Char} (bits : List Bool)
    (h : ∀ c ∈ before ++ after, isBlankChar c = true) :
    trimBlanks (stripComment (before ++ binaryLiteral bits ++ after)) = binaryLiteral bits := by
  obtain ⟨hbefore, hafter⟩ := List.forall_mem_append.mp h
  have hliteral : ∀ c ∈ binaryLiteral bits, isBlankChar c = false := by
    intro c hc
    obtain ⟨b, -, rfl⟩ := List.mem_map.mp hc
    exact isBlankChar_bitChar b
  have hhash : '#' ∉ before ++ binaryLiteral bits ++ after := by
    simp only [List.mem_append, not_or]
    exact ⟨⟨hash_notMem_blanks hbefore, hash_notMem_binaryLiteral bits⟩, hash_notMem_blanks hafter⟩
  rw [stripComment_of_notMem hhash, trimBlanks_around hbefore hafter hliteral]

/-! ### Files (R245, R246) -/

/-- The lines of a text written line by line are those lines, and an empty one after the last newline character. -/
theorem splitLines_fileText {lines : List (List Char)} (h : ∀ line ∈ lines, '\n' ∉ line) :
    splitLines (fileText lines) = lines ++ [[]] := by
  induction lines with
  | nil => rfl
  | cons line lines ih =>
    obtain ⟨hline, hlines⟩ := List.forall_mem_cons.mp h
    have htext : fileText (line :: lines) = line ++ '\n' :: fileText lines := by simp [fileText]
    rw [htext, splitLines_line hline, ih hlines, List.cons_append]

/-- Lines of which none is malformed load as the bytes of those that are not blank, in order. -/
theorem exists_loadLines_eq_some {lines : List (List Char)} (h : ∀ line ∈ lines, loadLine line ≠ .malformed) :
    ∃ program : List Byte, loadLines lines = some program ∧
      program.map LoadedLine.byte = (lines.map loadLine).filter (fun l => l != .skip) := by
  induction lines with
  | nil => exact ⟨[], rfl, rfl⟩
  | cons line more ih =>
    obtain ⟨hline, hmore⟩ := List.forall_mem_cons.mp h
    obtain ⟨program, hload, hbytes⟩ := ih hmore
    obtain ⟨hbad, -⟩ | ⟨hskip, hl⟩ | ⟨v, hv, hl⟩ := loadLines_cons line more
    · exact absurd hbad hline
    · exact ⟨program, hl.trans hload, by simp [hskip, hbytes]⟩
    · exact ⟨v :: program, by rw [hl, hload]; rfl, by simp [hv, hbytes]⟩

/-- The text written for a program boots it. -/
theorem bootFile_fileText (program : List Byte) : bootFile (fileText (program.map byteLine)) = boot program := by
  have hnewline : ∀ line ∈ program.map byteLine, '\n' ∉ line := by
    simpa using fun v _ => newline_notMem_byteLine v
  have hlast : loadLines [[]] = some [] := rfl
  apply bootFile_of_some
  rw [splitLines_fileText hnewline, loadLines_byteLines, hlast, Option.map_some, List.append_nil]

/-- Settles O51: the lines by what stripping leaves of them, the files by their lines. -/
theorem programFileLoadsItsBytes : Obligations.ProgramFileLoadsItsBytes := by
  refine ⟨fun line comment h => loadLine_append_comment h comment, fun _ => loadLine_blanks,
    fun before after bits h hne => ?_, fun _ _ => loadLine_of_mem, fun _ => splitLines_fileText,
    fun _ _ hline hbad => bootFile_of_none (loadLines_of_malformed hline hbad), fun text h => ?_, fun program h => ?_,
    fun program h => ⟨_, (bootFile_fileText program).trans (boot_of_le h), boot_of_le h⟩⟩
  · have hload := loadLine_of_binaryLiteral hne (trimBlanks_stripComment_literal bits h)
    exact ⟨fun hle => by rw [hload, if_pos hle], fun hgt => by rw [hload, if_neg (Nat.not_le.mpr hgt)]⟩
  · obtain ⟨program, hload, hbytes⟩ := exists_loadLines_eq_some h
    exact ⟨program, hbytes, bootFile_of_some hload⟩
  · rw [boot, if_neg (Nat.not_le.mpr h)]

end Sys2Proof.Machine
end

section
/-! The words of assembler text and how a line splits into them; then the statement about the assembler
(spec/30_encoding.md R83, R84). -/

namespace Sys2Proof.Machine

/-! ### Trimmed text and words -/

/-- A text that begins and ends with a character that is not blank. -/
def Trimmed (text : List Char) : Prop :=
  (∃ c, text.head? = some c ∧ isBlankChar c = false) ∧ ∃ c, text.getLast? = some c ∧ isBlankChar c = false

/-- A name or an operand as it stands in a line: not empty, without blanks and commas. -/
def IsWord (text : List Char) : Prop := text ≠ [] ∧ ∀ c ∈ text, isBlankChar c = false ∧ c ≠ ','

/-- The same as a closed check. -/
theorem isWord_of_all {text : List Char}
    (h : (!text.isEmpty && text.all (fun c => !isBlankChar c && c != ',')) = true) :
    IsWord text := by
  simpa [IsWord] using h

theorem dropWhile_isBlankChar_of_head? {text : List Char} {c : Char} (h : text.head? = some c)
    (hc : isBlankChar c = false) : text.dropWhile isBlankChar = text := by
  obtain ⟨rest, rfl⟩ := List.head?_eq_some_iff.mp h
  exact List.dropWhile_cons_of_neg (by simp [hc])

theorem Trimmed.trimBlanks_eq {text : List Char} (h : Trimmed text) : trimBlanks text = text := by
  obtain ⟨⟨c, hhead, hc⟩, d, hlast, hd⟩ := h
  rw [← List.head?_reverse] at hlast
  rw [trimBlanks, dropWhile_isBlankChar_of_head? hhead hc, dropWhile_isBlankChar_of_head? hlast hd,
    List.reverse_reverse]

theorem Trimmed.append {before after : List Char} (hb : Trimmed before) (ha : Trimmed after) (middle : List Char) :
    Trimmed (before ++ middle ++ after) := by
  obtain ⟨⟨c, hhead, hc⟩, -⟩ := hb
  obtain ⟨-, d, hlast, hd⟩ := ha
  exact ⟨⟨c, by simp [hhead], hc⟩, d, by simp [hlast], hd⟩

theorem IsWord.trimmed {text : List Char} (h : IsWord text) : Trimmed text := by
  obtain ⟨hne, hall⟩ := h
  exact ⟨⟨text.head hne, List.head?_eq_some_head hne, (hall _ (List.head_mem hne)).1⟩,
    text.getLast hne, List.getLast?_eq_some_getLast hne, (hall _ (List.getLast_mem hne)).1⟩

theorem trimBlanks_space_cons (text : List Char) : trimBlanks (' ' :: text) = trimBlanks text := rfl

theorem splitCommas_of_isWord {a : List Char} (h : IsWord a) : splitCommas a = [a] := by
  obtain ⟨-, hall⟩ := h
  induction a with
  | nil => rfl
  | cons c a ih =>
    obtain ⟨⟨-, hc⟩, hrest⟩ := List.forall_mem_cons.mp hall
    simp [splitCommas, hc, ih hrest]

/-- A word and its comma split off as that word. -/
theorem splitCommas_isWord_append {a : List Char} (h : IsWord a) (rest : List Char) :
    splitCommas (a ++ ',' :: rest) = a :: splitCommas rest := by
  obtain ⟨-, hall⟩ := h
  induction a with
  | nil => rfl
  | cons c a ih =>
    obtain ⟨⟨-, hc⟩, hrest⟩ := List.forall_mem_cons.mp hall
    simp [splitCommas, hc, ih hrest]

/-! ### Mnemonics (R72, R83) -/

theorem opOfName_longName (o : Op) : opOfName (longName o) = some o := by cases o <;> decide

theorem opOfName_shortName (o : Op) : opOfName (shortName o) = some o := by cases o <;> decide

theorem longName_isWord (o : Op) : IsWord (longName o) := by
  apply isWord_of_all
  cases o <;> decide

/-! ### Lines -/

/-- A line of a mnemonic, a space and an operand list is that operation on the list's parts. -/
theorem assembleLine_longName_append (o : Op) {operands : List Char} (h : Trimmed operands) :
    assembleLine (longName o ++ [' '] ++ operands) = parseOperands o ((splitCommas operands).map trimBlanks) := by
  obtain ⟨-, hname⟩ := longName_isWord o
  have hblank : ∀ c ∈ longName o, (!isBlankChar c) = true := fun c hc => by simp [(hname c hc).1]
  have htake : (longName o ++ ' ' :: operands).takeWhile (fun c => !isBlankChar c) = longName o := by
    rw [List.takeWhile_append_of_pos hblank, List.takeWhile_cons_of_neg (by decide), List.append_nil]
  have hdrop : (longName o ++ ' ' :: operands).dropWhile (fun c => !isBlankChar c) = ' ' :: operands := by
    rw [List.dropWhile_append_of_pos hblank, List.dropWhile_cons_of_neg (by decide)]
  have hne : operands.isEmpty = false := by
    obtain ⟨⟨c, hhead, -⟩, -⟩ := h
    cases operands with
    | nil => cases hhead
    | cons => rfl
  have htrim := ((longName_isWord o).trimmed.append h [' ']).trimBlanks_eq
  rw [List.append_assoc, List.singleton_append] at htrim ⊢
  simp only [assembleLine, htrim, htake, hdrop, trimBlanks_space_cons, h.trimBlanks_eq, opOfName_longName, hne,
    Bool.false_eq_true, if_false]

theorem assembleLine_one_operand (o : Op) {a : List Char} (ha : IsWord a) :
    assembleLine (longName o ++ [' '] ++ a) = parseOperands o [a] := by
  rw [assembleLine_longName_append o ha.trimmed, splitCommas_of_isWord ha, List.map_singleton, ha.trimmed.trimBlanks_eq]

theorem splitCommas_space_cons {a : List Char} (h : IsWord a) : splitCommas (' ' :: a) = [' ' :: a] := by
  simp [splitCommas, splitCommas_of_isWord h]

theorem assembleLine_two_operands (o : Op) {a b : List Char} (ha : IsWord a) (hb : IsWord b) :
    assembleLine (longName o ++ [' '] ++ a ++ [',', ' '] ++ b) = parseOperands o [a, b] := by
  have htext : longName o ++ [' '] ++ a ++ [',', ' '] ++ b = longName o ++ [' '] ++ (a ++ [',', ' '] ++ b) := by
    simp only [List.append_assoc]
  have hsplit : splitCommas (a ++ [',', ' '] ++ b) = [a, ' ' :: b] := by
    rw [List.append_assoc]
    exact (splitCommas_isWord_append ha (' ' :: b)).trans (congrArg (a :: ·) (splitCommas_space_cons hb))
  rw [htext, assembleLine_longName_append o (ha.trimmed.append hb.trimmed _), hsplit]
  simp only [List.map_cons, List.map_nil, trimBlanks_space_cons, ha.trimmed.trimBlanks_eq, hb.trimmed.trimBlanks_eq]

/-! ### Operands (R83) -/

theorem registerText_isWord (r : Reg) : IsWord (registerText (byteOfReg r)) := by
  apply isWord_of_all
  revert r
  decide

theorem parseRegister_registerText (r : Reg) : parseRegister (registerText (byteOfReg r)) = some (byteOfReg r) := by
  revert r
  decide

theorem toDigits_isWord (v : Byte) : IsWord (Nat.toDigits 10 v.toNat) := by
  apply isWord_of_all
  revert v
  decide

theorem parseImmediate_toDigits : ∀ v : Byte, parseImmediate (Nat.toDigits 10 v.toNat) = some v := by decide

/-! ### The round trip, format by format -/

theorem assembleLine_disassemble_of_n {i : Instr} (hf : i.op.format = .n) :
    assembleLine (disassemble i) = some i := by
  cases i with
  | halt | ret => decide
  | _ => cases hf

theorem disassemble_build_of_r {o : Op} (ho : o.format = .r) (a b : Byte) :
    disassemble (o.build a b) = longName o ++ [' '] ++ registerText a := by
  cases o <;> cases ho <;> rfl

theorem disassemble_build_of_rr {o : Op} (ho : o.format = .rr) (a b : Byte) :
    disassemble (o.build a b) = longName o ++ [' '] ++ registerText a ++ [',', ' '] ++ registerText b := by
  cases o <;> cases ho <;> rfl

/-- A well-formed instruction of format R is its operation on a register. -/
theorem exists_build_of_r {i : Instr} (hi : i.wellFormed = true) (hf : i.op.format = .r) :
    ∃ r, i.op.build (byteOfReg r) 0 = i := by
  obtain ⟨a, ha⟩ : ∃ a, i.operandBytes = [a] := List.length_eq_one_iff.mp (by rw [length_operandBytes, hf]; rfl)
  have hbuild : i.op.build a 0 = i := by simpa [ha] using build_operandBytes i []
  have hmem : a ∈ i.regOperands := by rw [← hbuild, regOperands_build_of_r hf]; exact List.mem_cons_self
  obtain ⟨r, rfl⟩ := exists_reg_of_wellFormed hi hmem
  exact ⟨r, hbuild⟩

/-- A well-formed instruction of format RR is its operation on two registers. -/
theorem exists_build_of_rr {i : Instr} (hi : i.wellFormed = true) (hf : i.op.format = .rr) :
    ∃ r q, i.op.build (byteOfReg r) (byteOfReg q) = i := by
  obtain ⟨a, b, hab⟩ : ∃ a b, i.operandBytes = [a, b] :=
    List.length_eq_two.mp (by rw [length_operandBytes, hf]; rfl)
  have hbuild : i.op.build a b = i := by simpa [hab] using build_operandBytes i []
  have hmem : i.regOperands = [a, b] := by rw [← hbuild, regOperands_build_of_rr hf]
  obtain ⟨r, rfl⟩ := exists_reg_of_wellFormed hi (b := a) (by simp [hmem])
  obtain ⟨q, rfl⟩ := exists_reg_of_wellFormed hi (b := b) (by simp [hmem])
  exact ⟨r, q, hbuild⟩

theorem assembleLine_disassemble_of_r {i : Instr} (hi : i.wellFormed = true) (hf : i.op.format = .r) :
    assembleLine (disassemble i) = some i := by
  obtain ⟨r, hr⟩ := exists_build_of_r hi hf
  calc assembleLine (disassemble i)
      = assembleLine (longName i.op ++ [' '] ++ registerText (byteOfReg r)) := by
        rw [← disassemble_build_of_r hf _ 0, hr]
    _ = parseOperands i.op [registerText (byteOfReg r)] := assembleLine_one_operand _ (registerText_isWord r)
    _ = some (i.op.build (byteOfReg r) 0) := by
        simp only [parseOperands, hf, parseRegister_registerText, Option.map_some]
    _ = some i := by rw [hr]

theorem assembleLine_disassemble_of_rr {i : Instr} (hi : i.wellFormed = true) (hf : i.op.format = .rr) :
    assembleLine (disassemble i) = some i := by
  obtain ⟨r, q, hrq⟩ := exists_build_of_rr hi hf
  calc assembleLine (disassemble i)
      = assembleLine (longName i.op ++ [' '] ++ registerText (byteOfReg r) ++ [',', ' '] ++
          registerText (byteOfReg q)) := by rw [← disassemble_build_of_rr hf, hrq]
    _ = parseOperands i.op [registerText (byteOfReg r), registerText (byteOfReg q)] :=
        assembleLine_two_operands _ (registerText_isWord r) (registerText_isWord q)
    _ = some (i.op.build (byteOfReg r) (byteOfReg q)) := by
        simp only [parseOperands, hf, parseRegister_registerText, Option.map_some, Option.bind_some]
    _ = some i := by rw [hrq]

theorem assembleLine_disassemble_loadImmediate (r : Reg) (v : Byte) :
    assembleLine (disassemble (.loadImmediate (byteOfReg r) v)) = some (.loadImmediate (byteOfReg r) v) := by
  calc assembleLine (disassemble (.loadImmediate (byteOfReg r) v))
      = parseOperands .loadImmediate [registerText (byteOfReg r), Nat.toDigits 10 v.toNat] :=
        assembleLine_two_operands .loadImmediate (registerText_isWord r) (toDigits_isWord v)
    _ = some (.loadImmediate (byteOfReg r) v) := by
        simp only [parseOperands, Op.format, parseRegister_registerText, parseImmediate_toDigits, Option.map_some,
          Option.bind_some, Op.build]

/-- Settles O52: the text of an instruction splits into the words it was written from, each of which reads back. -/
theorem assemblerReadsWhatItWrites : Obligations.AssemblerReadsWhatItWrites := by
  refine ⟨fun o => ⟨opOfName_longName o, opOfName_shortName o⟩, fun i hi => ?_⟩
  cases hf : i.op.format with
  | n => exact assembleLine_disassemble_of_n hf
  | r => exact assembleLine_disassemble_of_r hi hf
  | rr => exact assembleLine_disassemble_of_rr hi hf
  | ri =>
    cases i with
    | loadImmediate dest v =>
      obtain ⟨r, rfl⟩ := exists_reg_of_wellFormed hi (b := dest) List.mem_cons_self
      exact assembleLine_disassemble_loadImmediate r v
    | _ => cases hf

end Sys2Proof.Machine
end
